-- ==== Sys2Proof/Word.lean ====
section
/-! DEFINITION. The value domain of the block: bits, bit vectors, the six ALU controls, the unit names and the harness word.

00_scope.md R7, R3; 10_state.md R30, R31; 30_encoding.md R69, R70. -/

namespace Sys2Proof

/-- A Bit is a Boolean value: 1 is true, 0 is false (00_scope.md R7).
Signals are two-valued (10_state.md R30; log entry 9: DESIGN CHOICE of the spec, D4; safe: nothing else is representable). -/
abbrev Bit := Bool

/-- A Bit Vector: a list of bits, least-significant bit first; its width is its length (10_state.md R31).
A function of lists covers every instance width at once (00_scope.md R6; log entry 23). -/
abbrev Bits := List Bool

/-- OPWORD, the harness word: 9 bits (30_encoding.md R70, R74).
It is not hardware (log entry 11: DESIGN CHOICE of the spec, D5; safe: it only names operations). -/
abbrev OpWord := BitVec 9

/-- The ALU Control Word: six independent switches, "Not a single packed value" (00_scope.md section 7, 30_encoding.md R69). -/
structure Ctrl where
  zx : Bit
  nx : Bit
  zy : Bit
  ny : Bit
  f : Bit
  no : Bit
deriving DecidableEq, Repr

/-- The five units an OPWORD can name (30_encoding.md R71). -/
inductive UnitName where
  | ha
  | fa
  | add
  | inc
  | alu
deriving DecidableEq, Repr

end Sys2Proof
end

