-- ==== Sys2Proof/Syntax.lean ====
section
/-! DEFINITION. The operations a host can name: one constructor per row of spec/opcode_table.json.

The first five are the units of 30_encoding.md R71. The other eighteen are the named ALU presets of R76: aliases, which
expand to `alu` with their row's control word and which decoding never produces (log entry 12: DEDUCED from R76, safe). The
operands are no part of an operation; the host supplies them on the unit's ports (R70). -/

namespace Sys2Proof

/-- The operations. -/
inductive Instr where
  /-- `ha a, b` (40_adders.md R80). -/
  | ha
  /-- `fa a, b, cin` (40_adders.md R82). -/
  | fa
  /-- `add A, B` (40_adders.md R84). -/
  | add
  /-- `inc A` (40_adders.md R90). -/
  | inc
  /-- `alu X, Y, #cccccc` (41_alu.md R125). -/
  | alu (c : Ctrl)
  /-- `alu.zero X, Y`: 0. -/
  | aluZero
  /-- `alu.one X, Y`: 1. -/
  | aluOne
  /-- `alu.neg1 X, Y`: all ones. -/
  | aluNeg1
  /-- `alu.x X, Y`: x. -/
  | aluX
  /-- `alu.y X, Y`: y. -/
  | aluY
  /-- `alu.notx X, Y`: bitwise NOT x. -/
  | aluNotx
  /-- `alu.noty X, Y`: bitwise NOT y. -/
  | aluNoty
  /-- `alu.negx X, Y`: -x. -/
  | aluNegx
  /-- `alu.negy X, Y`: -y. -/
  | aluNegy
  /-- `alu.incx X, Y`: x + 1. -/
  | aluIncx
  /-- `alu.incy X, Y`: y + 1. -/
  | aluIncy
  /-- `alu.decx X, Y`: x - 1. -/
  | aluDecx
  /-- `alu.decy X, Y`: y - 1. -/
  | aluDecy
  /-- `alu.add X, Y`: x + y. -/
  | aluAdd
  /-- `alu.subxy X, Y`: x - y. -/
  | aluSubxy
  /-- `alu.subyx X, Y`: y - x. -/
  | aluSubyx
  /-- `alu.and X, Y`: bitwise x AND y. -/
  | aluAnd
  /-- `alu.or X, Y`: bitwise x OR y. -/
  | aluOr
deriving DecidableEq, Repr

end Sys2Proof
end

