-- ==== Sys2Proof/WellFormed.lean ====
section
/-! DEFINITION. Which operations an OPWORD names itself, and which are only names for one that it does.

Every control word is valid and no operation has an operand field (30_encoding.md R69, R70), so the one check on an operation
is this: is it one that decoding produces, or a preset alias (R76)? -/

namespace Sys2Proof

/-- The core forms: the five operations of 30_encoding.md R71. A preset is refused: it "is an alias: decoding never produces
it" (R76). -/
def Instr.wellFormed : Instr → Bool
  | .ha | .fa | .add | .inc | .alu _ => true
  | .aluZero | .aluOne | .aluNeg1 | .aluX | .aluY | .aluNotx | .aluNoty | .aluNegx | .aluNegy => false
  | .aluIncx | .aluIncy | .aluDecx | .aluDecy | .aluAdd | .aluSubxy | .aluSubyx | .aluAnd | .aluOr => false

end Sys2Proof
end

