-- ==== Sys2Proof/Decode.lean ====
section
/-! DEFINITION. OPWORD: decoding, total on every 9-bit word, and encoding.

30_encoding.md R69 to R76; opcode_table.json. OPWORD and the packing of the controls are the spec's own (D5, D6), not the
hardware's (log entry 11). -/

namespace Sys2Proof

/-- The control word of bits [5:0]: `ctrl[5] = zx`, ..., `ctrl[0] = no` (30_encoding.md R69). -/
def Ctrl.unpack (c : BitVec 6) : Ctrl :=
  { zx := c.getLsbD 5, nx := c.getLsbD 4, zy := c.getLsbD 3, ny := c.getLsbD 2, f := c.getLsbD 1, no := c.getLsbD 0 }

/-- The six controls as bits [5:0], most significant first `zx nx zy ny f no` (30_encoding.md R69). -/
def Ctrl.pack (c : Ctrl) : BitVec 6 :=
  BitVec.ofBool c.zx ++ BitVec.ofBool c.nx ++ BitVec.ofBool c.zy ++
    BitVec.ofBool c.ny ++ BitVec.ofBool c.f ++ BitVec.ofBool c.no

/-- Why a word names no operation (30_encoding.md R72). -/
inductive Invalid where
  /-- The unit field is 101, 110 or 111. -/
  | reservedUnit
  /-- The unit field is 000 to 011 and the control field is not 0. -/
  | nonzeroCtrl
deriving DecidableEq, Repr

/-- What decoding answers: an operation, or INVALID with its reason (30_encoding.md R73). -/
inductive Decoded where
  | op (i : Instr)
  | invalid (why : Invalid)
deriving DecidableEq, Repr

/-- Field `unit`, bits [8:6] (30_encoding.md R70). -/
def unitField (w : OpWord) : BitVec 3 := w.extractLsb' 6 3

/-- Field `ctrl`, bits [5:0] (30_encoding.md R70). -/
def ctrlField (w : OpWord) : BitVec 6 := w.extractLsb' 0 6

/-- Decode of 30_encoding.md R73, line by line. -/
def decode (w : OpWord) : Decoded :=
  let u := unitField w
  let c := ctrlField w
  if u = 0b100#3 then .op (.alu (Ctrl.unpack c))
  else if u = 0b101#3 ∨ u = 0b110#3 ∨ u = 0b111#3 then .invalid .reservedUnit
  else if c ≠ 0 then .invalid .nonzeroCtrl
  else if u = 0b000#3 then .op .ha
  else if u = 0b001#3 then .op .fa
  else if u = 0b010#3 then .op .add
  else .op .inc

/-! The control words of the presets: the `ctrl` column of 30_encoding.md R76. The names of fourteen of them are from general
knowledge (log entry 15: PRESUMED, safe: names only). -/

/-- `alu.zero`. -/
def ctrlZero : Ctrl := Ctrl.unpack 0b101010#6
/-- `alu.one`. -/
def ctrlOne : Ctrl := Ctrl.unpack 0b111111#6
/-- `alu.neg1`. -/
def ctrlNeg1 : Ctrl := Ctrl.unpack 0b111010#6
/-- `alu.x`. -/
def ctrlX : Ctrl := Ctrl.unpack 0b001100#6
/-- `alu.y`. -/
def ctrlY : Ctrl := Ctrl.unpack 0b110000#6
/-- `alu.notx`. -/
def ctrlNotx : Ctrl := Ctrl.unpack 0b001101#6
/-- `alu.noty`. -/
def ctrlNoty : Ctrl := Ctrl.unpack 0b110001#6
/-- `alu.negx`. -/
def ctrlNegx : Ctrl := Ctrl.unpack 0b001111#6
/-- `alu.negy`. -/
def ctrlNegy : Ctrl := Ctrl.unpack 0b110011#6
/-- `alu.incx`. -/
def ctrlIncx : Ctrl := Ctrl.unpack 0b011111#6
/-- `alu.incy`. -/
def ctrlIncy : Ctrl := Ctrl.unpack 0b110111#6
/-- `alu.decx`. -/
def ctrlDecx : Ctrl := Ctrl.unpack 0b001110#6
/-- `alu.decy`. -/
def ctrlDecy : Ctrl := Ctrl.unpack 0b110010#6
/-- `alu.add`. -/
def ctrlAdd : Ctrl := Ctrl.unpack 0b000010#6
/-- `alu.subxy`. -/
def ctrlSubxy : Ctrl := Ctrl.unpack 0b010011#6
/-- `alu.subyx`. -/
def ctrlSubyx : Ctrl := Ctrl.unpack 0b000111#6
/-- `alu.and`. -/
def ctrlAnd : Ctrl := Ctrl.unpack 0b000000#6
/-- `alu.or`. -/
def ctrlOr : Ctrl := Ctrl.unpack 0b010101#6

/-- The core operation a name stands for: a preset "expands to `alu X, Y, #cccccc` with its row's `ctrl`" (30_encoding.md R76). -/
def Instr.expand : Instr → Instr
  | .ha => .ha
  | .fa => .fa
  | .add => .add
  | .inc => .inc
  | .alu c => .alu c
  | .aluZero => .alu ctrlZero
  | .aluOne => .alu ctrlOne
  | .aluNeg1 => .alu ctrlNeg1
  | .aluX => .alu ctrlX
  | .aluY => .alu ctrlY
  | .aluNotx => .alu ctrlNotx
  | .aluNoty => .alu ctrlNoty
  | .aluNegx => .alu ctrlNegx
  | .aluNegy => .alu ctrlNegy
  | .aluIncx => .alu ctrlIncx
  | .aluIncy => .alu ctrlIncy
  | .aluDecx => .alu ctrlDecx
  | .aluDecy => .alu ctrlDecy
  | .aluAdd => .alu ctrlAdd
  | .aluSubxy => .alu ctrlSubxy
  | .aluSubyx => .alu ctrlSubyx
  | .aluAnd => .alu ctrlAnd
  | .aluOr => .alu ctrlOr

/-- The unit an operation evaluates (30_encoding.md R71, R76). -/
def Instr.unitOf : Instr → UnitName
  | .ha => .ha
  | .fa => .fa
  | .add => .add
  | .inc => .inc
  | .alu _ => .alu
  | .aluZero | .aluOne | .aluNeg1 | .aluX | .aluY | .aluNotx | .aluNoty | .aluNegx | .aluNegy => .alu
  | .aluIncx | .aluIncy | .aluDecx | .aluDecy | .aluAdd | .aluSubxy | .aluSubyx | .aluAnd | .aluOr => .alu

/-- The unit codes of 30_encoding.md R71. -/
def unitCode : UnitName → BitVec 3
  | .ha => 0b000#3
  | .fa => 0b001#3
  | .add => 0b010#3
  | .inc => 0b011#3
  | .alu => 0b100#3

/-- The control field: the controls for `alu` and its presets, 0 for every other unit (30_encoding.md R70). -/
def ctrlBits (i : Instr) : BitVec 6 :=
  match i.expand with
  | .alu c => c.pack
  | _ => 0#6

/-- The OPWORD of an operation: unit code in bits [8:6], controls in bits [5:0] (30_encoding.md R70, R71, R76). -/
def encode (i : Instr) : OpWord := unitCode i.unitOf ++ ctrlBits i

/-- The OPWORD that the low `nbits` bits of a number stand for. A number of 2^9 or more is no OPWORD (30_encoding.md R74); it
is given the all-ones word, whose unit 111 names no operation, so that it is refused as R72 says (log entry 11: DESIGN CHOICE,
safe). -/
def tableWord (nbits w : Nat) : OpWord :=
  let v := w % 2 ^ nbits
  if v < 512 then BitVec.ofNat 9 v else 0b111111111#9

/-- The operation the decoder reads from a row's word, `none` where it refuses. -/
def decodeTableWord (nbits w : Nat) : Option Instr :=
  match decode (tableWord nbits w) with
  | .op i => some i
  | .invalid _ => none

end Sys2Proof
end

