-- ==== Sys2Proof/Machine/State.lean ====
section
/-! DEFINITION. What the machine's state holds, why a step can stop, and the state after reset.

The block stores nothing: "A model's machine state for the block is the empty record" (10_state.md R20). State holds the levels
at the units' ports (30_encoding.md R61 to R65) and the host agent that drives them (10_state.md R28, 30_encoding.md R75); log
entries 1, 7 and 21. There is no memory (20_memory.md R42), so no memory field. -/

namespace Sys2Proof.Machine

/-- Input ports of the half adder (30_encoding.md R61). -/
structure HaIn where
  a : Bit
  b : Bit
deriving DecidableEq, Repr

/-- Input ports of the full adder (30_encoding.md R62). -/
structure FaIn where
  a : Bit
  b : Bit
  carryIn : Bit
deriving DecidableEq, Repr

/-- Input ports of the ripple-carry adder; it has no carry-in (30_encoding.md R63). -/
structure AddIn where
  a : Bits
  b : Bits
deriving DecidableEq, Repr

/-- Input port of the incrementer (30_encoding.md R64). -/
structure IncIn where
  a : Bits
deriving DecidableEq, Repr

/-- Operand ports of the ALU (30_encoding.md R65). Its six control ports are driven by the OPWORD's control field and are not
held here: "No control value persists to a later evaluation" (10_state.md R23; log entry 21). -/
structure AluIn where
  x : Bits
  y : Bits
deriving DecidableEq, Repr

/-- Output ports of the half adder (30_encoding.md R61). -/
structure HaOut where
  sum : Bit
  carry : Bit
deriving DecidableEq, Repr

/-- Output ports of the full adder (30_encoding.md R62). -/
structure FaOut where
  sum : Bit
  carryOut : Bit
deriving DecidableEq, Repr

/-- Output ports of the ripple-carry adder (30_encoding.md R63). -/
structure AddOut where
  sum : Bits
  carry : Bit
deriving DecidableEq, Repr

/-- Output ports of the incrementer (30_encoding.md R64). -/
structure IncOut where
  result : Bits
  overflow : Bit
deriving DecidableEq, Repr

/-- Output ports of the ALU (30_encoding.md R65); it has no carry output (41_alu.md R115). -/
structure AluOut where
  out : Bits
  zr : Bit
  ng : Bit
deriving DecidableEq, Repr

/-- The levels the host drives, unit by unit. -/
structure Inputs where
  ha : HaIn
  fa : FaIn
  add : AddIn
  inc : IncIn
  alu : AluIn
deriving DecidableEq, Repr

/-- The settled outputs of each unit at its last evaluation. -/
structure Outputs where
  ha : HaOut
  fa : FaOut
  add : AddOut
  inc : IncOut
  alu : AluOut
deriving DecidableEq, Repr

/-- A value of the host: a Bit or a Bit Vector (10_state.md R21: "The only values are Bits and Bit Vectors"). -/
inductive Value where
  | bit (b : Bit)
  | vec (v : Bits)
deriving DecidableEq, Repr

/-- An operand of a host line: one of the host's names or a literal (30_encoding.md R75). Identifiers are numbers (log entry 18). -/
inductive Operand where
  | name (n : Nat)
  | lit (v : Value)
deriving DecidableEq, Repr

/-- One line of the host's script (30_encoding.md R75). -/
inductive Stmt where
  /-- An operation line: the OPWORD, its operands, and the names its outputs are given (`none` is `_`, discarded). -/
  | eval (word : OpWord) (args : List Operand) (outs : List (Option Nat))
  /-- `name = operand`: the host assignment of 95_test_vectors.md P1; no evaluation (log entry 18: DEDUCED). -/
  | assign (n : Nat) (v : Operand)
  /-- `if <bit> goto <label>`, or `if not <bit> goto <label>` where `negated`. What `<bit>` may be is left open by R75; here it is
  one of the host's names, never a literal (log entry 24: DESIGN CHOICE, safe). -/
  | branch (negated : Bool) (cond : Nat) (target : Nat)
  /-- `goto <label>`. -/
  | goto (target : Nat)
  /-- `<label>:` -/
  | label (l : Nat)
deriving DecidableEq, Repr

/-- The state: the port levels and the host agent. -/
structure State where
  /-- The levels the host drives at the input ports. -/
  inputs : Inputs
  /-- The settled outputs of each unit's last evaluation (log entry 7). -/
  outputs : Outputs
  /-- The host's named values, identifiers strictly rising (30_encoding.md R75; 95_test_vectors.md section 3: its memory). -/
  names : List (Nat × Value)
  /-- The host's script (30_encoding.md R75). -/
  script : List Stmt
  /-- The host's place in its script; at or past the end the script has ended (92_eei_decisions.md D12). -/
  line : Nat
deriving DecidableEq, Repr

/-- Why the machine faults: never. "No unit raises an exception" (60_exceptions.md R150), so this type has no constructor
(log entry 20: DEDUCED; unsafe only if a unit could fault, which R150 denies). -/
inductive Fault where
deriving DecidableEq, Repr

/-- Why a step is refused at the boundary (60_exceptions.md R155). None is a hardware fault; all are safe: the run stops there. -/
inductive Refusal where
  /-- Raised by an arm of `exec` for an operation with no meaning yet; safe. No arm raises it. -/
  | notModelled (mnemonic : String)
  /-- Raised by an operation line whose OPWORD names no operation (30_encoding.md R72); safe. -/
  | reservedOpword (word : OpWord)
  /-- Raised by an operation line whose operand or output count is not its unit's port count, which is no line of
  30_encoding.md R75's syntax; safe (log entry 19: DESIGN CHOICE). -/
  | operandCount
  /-- Raised by a line that puts a vector where the port is a Bit or a Bit where it is a vector: an input with no
  representation there (10_state.md R30); safe (log entry 9: DEDUCED). -/
  | valueKind
  /-- Raised by a line that reads an identifier the host gave no value: the port would not be driven
  (70_reset_and_hazards.md R171); safe (log entry 9: DEDUCED). -/
  | unboundName (n : Nat)
  /-- Raised by a goto whose label no line has; safe (log entry 19: DESIGN CHOICE). -/
  | unknownLabel (l : Nat)
deriving DecidableEq, Repr

/-- The input levels at reset. The spec gives none (70_reset_and_hazards.md R170), so they are the model's: every Bit 0, every
vector empty (log entry 2: DESIGN CHOICE, unsafe). -/
def Inputs.reset : Inputs :=
  { ha := { a := false, b := false }, fa := { a := false, b := false, carryIn := false }, add := { a := [], b := [] },
    inc := { a := [] }, alu := { x := [], y := [] } }

/-- The outputs at reset: the settled outputs for the reset inputs (log entry 3: DESIGN CHOICE, unsafe). `zr` and `ng` are
"always equal to the flag processor's function of the current `out`" (70_reset_and_hazards.md R170). -/
def Outputs.reset : Outputs :=
  { ha := { sum := false, carry := false }, fa := { sum := false, carryOut := false }, add := { sum := [], carry := false },
    inc := { result := [true], overflow := false }, alu := { out := [], zr := true, ng := false } }

/-- The machine after reset: nothing is stored in the block (70_reset_and_hazards.md R170), and the host has no names and no
script (log entries 4 and 5: DESIGN CHOICE, unsafe). -/
def State.reset : State :=
  { inputs := Inputs.reset, outputs := Outputs.reset, names := [], script := [], line := 0 }

end Sys2Proof.Machine
end

