-- ==== Sys2Proof/Machine/Ops.lean ====
section
/-! DEFINITION. The shared operations: gates, vector access, number readings, the ports, the host's names, sequencing.

There is no operation that takes an exception and none that returns from one: "The block has no trap entry, no trap return"
(60_exceptions.md R155), and no memory operation (20_memory.md R42). -/

namespace Sys2Proof.Machine

/-! ## Gates (00_scope.md R10 to R13)

The truth tables are "from general knowledge, not in source" (G1; log entry 13: PRESUMED by the spec, unsafe). -/

/-- `NOT a` (00_scope.md R10). -/
def gateNot : Bit → Bit
  | false => true
  | true => false

/-- `a AND b` (00_scope.md R11). -/
def gateAnd : Bit → Bit → Bit
  | true, true => true
  | true, false => false
  | false, _ => false

/-- `a OR b` (00_scope.md R12). -/
def gateOr : Bit → Bit → Bit
  | false, false => false
  | false, true => true
  | true, _ => true

/-- `a XOR b` (00_scope.md R13). -/
def gateXor : Bit → Bit → Bit
  | false, b => b
  | true, b => gateNot b

/-! ## Vectors (00_scope.md R7, 20_memory.md R40, R41) -/

/-- `bit(v, i)`: bit `i` of `v`, or 0 at and beyond its width (20_memory.md R40). -/
def bitAt (v : Bits) (i : Nat) : Bit := v.getD i false

/-- `zext_N(v)`: bits 0 to N-1 of `v`, padded with 0 or cut (00_scope.md R7). -/
def zext (n : Nat) (v : Bits) : Bits := (List.range n).map (bitAt v)

/-- `zeros(N)` (00_scope.md R7). -/
def zeros (n : Nat) : Bits := List.replicate n false

/-- `ones(N)` (00_scope.md R7). -/
def ones (n : Nat) : Bits := List.replicate n true

/-- `uint(v)`: bit `i` has place value `2^i` (00_scope.md R7, 20_memory.md R41). -/
def uint : Bits → Nat
  | [] => 0
  | b :: v => b.toNat + 2 * uint v

/-- `sint(v)`, the two's-complement reading (00_scope.md R8; G2, log entry 14: PRESUMED by the spec; no output depends on it).
R8 gives it for width 1 and up; at width 0 this is 0, and no statement rests on that. -/
def sint (v : Bits) : Int := (uint v : Int) - (bitAt v (v.length - 1)).toNat * 2 ^ v.length

/-! ## Ports -/

/-- The state with other output levels. -/
def State.setOutputs (s : State) (o : Outputs) : State := { s with outputs := o }

/-- The state with other input levels. -/
def State.setInputs (s : State) (i : Inputs) : State := { s with inputs := i }

/-- The half adder's outputs replaced. -/
def Outputs.setHa (o : Outputs) (r : HaOut) : Outputs := { o with ha := r }
/-- The full adder's outputs replaced. -/
def Outputs.setFa (o : Outputs) (r : FaOut) : Outputs := { o with fa := r }
/-- The ripple-carry adder's outputs replaced. -/
def Outputs.setAdd (o : Outputs) (r : AddOut) : Outputs := { o with add := r }
/-- The incrementer's outputs replaced. -/
def Outputs.setInc (o : Outputs) (r : IncOut) : Outputs := { o with inc := r }
/-- The ALU's outputs replaced. -/
def Outputs.setAlu (o : Outputs) (r : AluOut) : Outputs := { o with alu := r }

/-- The half adder's inputs driven. -/
def Inputs.setHa (p : Inputs) (r : HaIn) : Inputs := { p with ha := r }
/-- The full adder's inputs driven. -/
def Inputs.setFa (p : Inputs) (r : FaIn) : Inputs := { p with fa := r }
/-- The ripple-carry adder's inputs driven. -/
def Inputs.setAdd (p : Inputs) (r : AddIn) : Inputs := { p with add := r }
/-- The incrementer's input driven. -/
def Inputs.setInc (p : Inputs) (r : IncIn) : Inputs := { p with inc := r }
/-- The ALU's operand inputs driven. -/
def Inputs.setAlu (p : Inputs) (r : AluIn) : Inputs := { p with alu := r }

/-! ## The host's names (30_encoding.md R75) -/

/-- The host's names replaced. -/
def State.setNames (s : State) (e : List (Nat × Value)) : State := { s with names := e }

/-- The host moves to a line of its script. -/
def State.setLine (s : State) (n : Nat) : State := { s with line := n }

/-- The host moves to its next line. -/
def State.nextLine (s : State) : State := s.setLine (s.line + 1)

/-- The value of an identifier, if the host gave it one. -/
def lookup : List (Nat × Value) → Nat → Option Value
  | [], _ => none
  | (k, v) :: e, n => if k = n then some v else lookup e n

/-- Gives an identifier a value, keeping identifiers strictly rising. -/
def bindName : List (Nat × Value) → Nat → Value → List (Nat × Value)
  | [], n, v => [(n, v)]
  | (k, x) :: e, n, v =>
    if n < k then (n, v) :: (k, x) :: e
    else if n = k then (n, v) :: e
    else (k, x) :: bindName e n v

/-- The form the host's names keep: identifiers strictly rising, so that equal bindings are equal data. -/
def namesCanonical : List (Nat × Value) → Bool
  | [] => true
  | [_] => true
  | (k, _) :: (m, y) :: e => decide (k < m) && namesCanonical ((m, y) :: e)

/-! ## Sequencing -/

/-- Goes on with a value, or refuses at the boundary (60_exceptions.md R155). -/
def orRefuse {α : Type} (r : Except Refusal α) (k : α → Host.Outcome State Fault Refusal) :
    Host.Outcome State Fault Refusal :=
  match r with
  | .ok a => k a
  | .error e => .refused e

/-- Goes on from a next state; a stop stays a stop. -/
def andThen (o : Host.Outcome State Fault Refusal) (k : State → Host.Outcome State Fault Refusal) :
    Host.Outcome State Fault Refusal :=
  match o with
  | .next s => k s
  | .fault r => .fault r
  | .refused r => .refused r

end Sys2Proof.Machine
end

