-- ==== Sys2Proof/Machine/Adders.lean ====
section
/-! DEFINITION. The adder chain: half adder, full adder, ripple-carry adder, incrementer (40_adders.md). -/

namespace Sys2Proof.Machine

/-- The half adder (40_adders.md R80). -/
def halfAdder (a b : Bit) : HaOut := { sum := gateXor a b, carry := gateAnd a b }

/-- The full adder: two half adders and an OR of their carries (40_adders.md R82). -/
def fullAdder (a b carryIn : Bit) : FaOut :=
  let first := halfAdder a b
  let second := halfAdder first.sum carryIn
  { sum := second.sum, carryOut := gateOr first.carry second.carry }

/-- The adder's loop after its first `n` positions: the sum bits so far and the running carry, which starts at 0
(40_adders.md R84). Position `i` takes the carry out of position `i - 1` (R86). -/
def ripple (a b : Bits) : Nat → AddOut
  | 0 => { sum := [], carry := false }
  | i + 1 =>
    match ripple a b i with
    | ⟨sum, c⟩ =>
      let stage := fullAdder (bitAt a i) (bitAt b i) c
      { sum := sum ++ [stage.sum], carry := stage.carryOut }

/-- The ripple-carry adder, at width `max(len(a), len(b))` (40_adders.md R84, R85). -/
def nBitAdder (a b : Bits) : AddOut := ripple a b (max a.length b.length)

/-- The incrementer: the adder applied to `(a, [1])` (40_adders.md R90).
At width 0 it gives `([1], 0)`, by 90_conflicts.md C1 (log entry 8: DEDUCED, unsafe if C1 were decided otherwise). -/
def incrementer (a : Bits) : IncOut :=
  match nBitAdder a [true] with
  | ⟨sum, carry⟩ => { result := sum, overflow := carry }

/-- `ha`: one evaluation of the half adder on its ports (40_adders.md R80). -/
def execHa (s : State) : Host.Outcome State Fault Refusal :=
  .next (s.setOutputs (s.outputs.setHa (halfAdder s.inputs.ha.a s.inputs.ha.b)))

/-- `fa`: one evaluation of the full adder on its ports (40_adders.md R82). -/
def execFa (s : State) : Host.Outcome State Fault Refusal :=
  .next (s.setOutputs (s.outputs.setFa (fullAdder s.inputs.fa.a s.inputs.fa.b s.inputs.fa.carryIn)))

/-- `add`: one evaluation of the ripple-carry adder on its ports (40_adders.md R84). -/
def execAdd (s : State) : Host.Outcome State Fault Refusal :=
  .next (s.setOutputs (s.outputs.setAdd (nBitAdder s.inputs.add.a s.inputs.add.b)))

/-- `inc`: one evaluation of the incrementer on its port (40_adders.md R90). -/
def execInc (s : State) : Host.Outcome State Fault Refusal :=
  .next (s.setOutputs (s.outputs.setInc (incrementer s.inputs.inc.a)))

end Sys2Proof.Machine
end

