-- ==== Sys2Proof/Machine/Flags.lean ====
section
/-! DEFINITION. The flag processor: zero and negative detection (41_alu.md R117 to R119).

It reads `out` and nothing else (R117). No other unit has a flag output (10_state.md R24). -/

namespace Sys2Proof.Machine

/-- `zr`: 1 iff every bit of `out` is 0, vacuously at width 0 (41_alu.md R118). -/
def zeroFlag (out : Bits) : Bit := out.all fun b => b == false

/-- `ng`: the most significant bit of `out`, 0 at width 0 (41_alu.md R119). -/
def negFlag (out : Bits) : Bit := if 1 ≤ out.length then bitAt out (out.length - 1) else false

/-- The ALU Result of a settled `out`: the triple with its derived flags (41_alu.md R117, R120). -/
def withFlags (out : Bits) : AluOut := { out := out, zr := zeroFlag out, ng := negFlag out }

end Sys2Proof.Machine
end

