-- ==== Sys2Proof/Machine/Alu.lean ====
section
/-! DEFINITION. The ALU: input conditioner, function unit, output negator, flag processor, and its presets (41_alu.md,
30_encoding.md R76). -/

namespace Sys2Proof.Machine

/-- The input conditioner at working width `n`: each bit is zero-extended, then zeroed if `z`, then inverted if `neg`
(41_alu.md R110, R111; the order is R112's). -/
def condition (v : Bits) (z neg : Bit) (n : Nat) : Bits :=
  (List.range n).map fun i =>
    let t := bitAt v i
    let t := if z then false else t
    if neg then gateNot t else t

/-- The function unit: addition if `f`, its carry discarded (41_alu.md R113, R115), else bitwise AND (R114). -/
def functionUnit (xp yp : Bits) (f : Bit) (n : Nat) : Bits :=
  if f then zext n (nBitAdder xp yp).sum
  else (List.range n).map fun i => gateAnd (bitAt xp i) (bitAt yp i)

/-- The output negator: every bit inverted if `no` (41_alu.md R116). -/
def negateOut (v : Bits) (no : Bit) : Bits := if no then v.map gateNot else v

/-- The ALU: the six stages in order (41_alu.md R125, R126). -/
def alu (x y : Bits) (c : Ctrl) : AluOut :=
  let n := max x.length y.length
  let xp := condition x c.zx c.nx n
  let yp := condition y c.zy c.ny n
  withFlags (negateOut (functionUnit xp yp c.f n) c.no)

/-- One evaluation of the ALU on its operand ports under a control word (41_alu.md R125). -/
def evalAlu (c : Ctrl) (s : State) : Host.Outcome State Fault Refusal :=
  .next (s.setOutputs (s.outputs.setAlu (alu s.inputs.alu.x s.inputs.alu.y c)))

/-- `alu X, Y, #cccccc` (41_alu.md R125). -/
def execAlu (c : Ctrl) (s : State) : Host.Outcome State Fault Refusal := evalAlu c s

/-! The presets: each is `alu` with its row's control word (30_encoding.md R76). -/

/-- `alu.zero X, Y` (30_encoding.md R76). -/
def execAluZero (s : State) : Host.Outcome State Fault Refusal := evalAlu ctrlZero s
/-- `alu.one X, Y` (30_encoding.md R76). -/
def execAluOne (s : State) : Host.Outcome State Fault Refusal := evalAlu ctrlOne s
/-- `alu.neg1 X, Y` (30_encoding.md R76). -/
def execAluNeg1 (s : State) : Host.Outcome State Fault Refusal := evalAlu ctrlNeg1 s
/-- `alu.x X, Y` (30_encoding.md R76). -/
def execAluX (s : State) : Host.Outcome State Fault Refusal := evalAlu ctrlX s
/-- `alu.y X, Y` (30_encoding.md R76). -/
def execAluY (s : State) : Host.Outcome State Fault Refusal := evalAlu ctrlY s
/-- `alu.notx X, Y` (30_encoding.md R76). -/
def execAluNotx (s : State) : Host.Outcome State Fault Refusal := evalAlu ctrlNotx s
/-- `alu.noty X, Y` (30_encoding.md R76). -/
def execAluNoty (s : State) : Host.Outcome State Fault Refusal := evalAlu ctrlNoty s
/-- `alu.negx X, Y` (30_encoding.md R76). -/
def execAluNegx (s : State) : Host.Outcome State Fault Refusal := evalAlu ctrlNegx s
/-- `alu.negy X, Y` (30_encoding.md R76). -/
def execAluNegy (s : State) : Host.Outcome State Fault Refusal := evalAlu ctrlNegy s
/-- `alu.incx X, Y` (30_encoding.md R76). -/
def execAluIncx (s : State) : Host.Outcome State Fault Refusal := evalAlu ctrlIncx s
/-- `alu.incy X, Y` (30_encoding.md R76). -/
def execAluIncy (s : State) : Host.Outcome State Fault Refusal := evalAlu ctrlIncy s
/-- `alu.decx X, Y` (30_encoding.md R76). -/
def execAluDecx (s : State) : Host.Outcome State Fault Refusal := evalAlu ctrlDecx s
/-- `alu.decy X, Y` (30_encoding.md R76). -/
def execAluDecy (s : State) : Host.Outcome State Fault Refusal := evalAlu ctrlDecy s
/-- `alu.add X, Y` (30_encoding.md R76). -/
def execAluAdd (s : State) : Host.Outcome State Fault Refusal := evalAlu ctrlAdd s
/-- `alu.subxy X, Y` (30_encoding.md R76). -/
def execAluSubxy (s : State) : Host.Outcome State Fault Refusal := evalAlu ctrlSubxy s
/-- `alu.subyx X, Y` (30_encoding.md R76). -/
def execAluSubyx (s : State) : Host.Outcome State Fault Refusal := evalAlu ctrlSubyx s
/-- `alu.and X, Y` (30_encoding.md R76). -/
def execAluAnd (s : State) : Host.Outcome State Fault Refusal := evalAlu ctrlAnd s
/-- `alu.or X, Y` (30_encoding.md R76). -/
def execAluOr (s : State) : Host.Outcome State Fault Refusal := evalAlu ctrlOr s

end Sys2Proof.Machine
end

