-- ==== Sys2Proof/Machine/Dispatch.lean ====
section
/-! DEFINITION. Each operation to its meaning. -/

namespace Sys2Proof.Machine

def exec (i : Instr) (s : State) : Host.Outcome State Fault Refusal :=
  match i with
  -- adders (40_adders.md)
  | .ha => Sys2Proof.Machine.execHa s
  | .fa => Sys2Proof.Machine.execFa s
  | .add => Sys2Proof.Machine.execAdd s
  | .inc => Sys2Proof.Machine.execInc s
  -- ALU (41_alu.md)
  | .alu c => Sys2Proof.Machine.execAlu c s
  -- ALU presets (30_encoding.md R76)
  | .aluZero => Sys2Proof.Machine.execAluZero s
  | .aluOne => Sys2Proof.Machine.execAluOne s
  | .aluNeg1 => Sys2Proof.Machine.execAluNeg1 s
  | .aluX => Sys2Proof.Machine.execAluX s
  | .aluY => Sys2Proof.Machine.execAluY s
  | .aluNotx => Sys2Proof.Machine.execAluNotx s
  | .aluNoty => Sys2Proof.Machine.execAluNoty s
  | .aluNegx => Sys2Proof.Machine.execAluNegx s
  | .aluNegy => Sys2Proof.Machine.execAluNegy s
  | .aluIncx => Sys2Proof.Machine.execAluIncx s
  | .aluIncy => Sys2Proof.Machine.execAluIncy s
  | .aluDecx => Sys2Proof.Machine.execAluDecx s
  | .aluDecy => Sys2Proof.Machine.execAluDecy s
  | .aluAdd => Sys2Proof.Machine.execAluAdd s
  | .aluSubxy => Sys2Proof.Machine.execAluSubxy s
  | .aluSubyx => Sys2Proof.Machine.execAluSubyx s
  | .aluAnd => Sys2Proof.Machine.execAluAnd s
  | .aluOr => Sys2Proof.Machine.execAluOr s

end Sys2Proof.Machine
end

