-- ==== Sys2Proof/Machine/Operands.lean ====
section
/-! DEFINITION. How a host line's operands reach a unit's input ports and its outputs reach the host's names
(30_encoding.md R61 to R65, R75). No operand is an immediate field of an OPWORD, and none is extended here: zero-extension is
the units' own (R68). -/

namespace Sys2Proof.Machine

/-- The value of one operand. An identifier with no value leaves its port undriven and is refused (70_reset_and_hazards.md R171;
log entry 9). -/
def resolve (e : List (Nat × Value)) : Operand → Except Refusal Value
  | .lit v => .ok v
  | .name n =>
    match lookup e n with
    | some v => .ok v
    | none => .error (.unboundName n)

/-- The values of a line's operands, all read before any name is bound (10_state.md R26). -/
def resolveAll (e : List (Nat × Value)) : List Operand → Except Refusal (List Value)
  | [] => .ok []
  | a :: as =>
    match resolve e a with
    | .error r => .error r
    | .ok v =>
      match resolveAll e as with
      | .error r => .error r
      | .ok vs => .ok (v :: vs)

/-- How many input ports the host drives for a unit, the ALU's controls apart (30_encoding.md R61 to R65). -/
def inputCount : UnitName → Nat
  | .ha => 2
  | .fa => 3
  | .add => 2
  | .inc => 1
  | .alu => 2

/-- How many output ports a unit has (30_encoding.md R61 to R65). -/
def outputCount : UnitName → Nat
  | .ha => 2
  | .fa => 2
  | .add => 2
  | .inc => 2
  | .alu => 3

/-- Drives a unit's input ports with values in the ports' order. A Bit at a vector port or a vector at a Bit port has no
representation there and is refused (10_state.md R30; log entry 9). -/
def drive (u : UnitName) (vs : List Value) (p : Inputs) : Except Refusal Inputs :=
  if vs.length = inputCount u then
    match u, vs with
    | .ha, [.bit a, .bit b] => .ok (p.setHa { a := a, b := b })
    | .fa, [.bit a, .bit b, .bit c] => .ok (p.setFa { a := a, b := b, carryIn := c })
    | .add, [.vec a, .vec b] => .ok (p.setAdd { a := a, b := b })
    | .inc, [.vec a] => .ok (p.setInc { a := a })
    | .alu, [.vec x, .vec y] => .ok (p.setAlu { x := x, y := y })
    | _, _ => .error .valueKind
  else .error .operandCount

/-- The levels at a unit's input ports, in the ports' order. -/
def inputValues (u : UnitName) (p : Inputs) : List Value :=
  match u with
  | .ha => [.bit p.ha.a, .bit p.ha.b]
  | .fa => [.bit p.fa.a, .bit p.fa.b, .bit p.fa.carryIn]
  | .add => [.vec p.add.a, .vec p.add.b]
  | .inc => [.vec p.inc.a]
  | .alu => [.vec p.alu.x, .vec p.alu.y]

/-- A unit's outputs, in the ports' order. -/
def outputValues (u : UnitName) (o : Outputs) : List Value :=
  match u with
  | .ha => [.bit o.ha.sum, .bit o.ha.carry]
  | .fa => [.bit o.fa.sum, .bit o.fa.carryOut]
  | .add => [.vec o.add.sum, .bit o.add.carry]
  | .inc => [.vec o.inc.result, .bit o.inc.overflow]
  | .alu => [.vec o.alu.out, .bit o.alu.zr, .bit o.alu.ng]

/-- Gives the host's names the outputs, left to right; `none` is `_`, "discarded by the host" (30_encoding.md R75).
A line that has not one place for each output is refused (log entry 19). -/
def bindOutputs : List (Option Nat) → List Value → List (Nat × Value) → Except Refusal (List (Nat × Value))
  | [], [], e => .ok e
  | none :: ns, _ :: vs, e => bindOutputs ns vs e
  | some n :: ns, v :: vs, e => bindOutputs ns vs (bindName e n v)
  | _, _, _ => .error .operandCount

end Sys2Proof.Machine
end

