-- ==== Sys2Proof/Machine/Script.lean ====
section
/-! DEFINITION. The host agent: what one line of its script does (10_state.md R28, 30_encoding.md R75).

An operation line is one evaluation of one unit, as one atomic step (20_memory.md R47). The other lines are "host control flow;
not a unit operation" (R75); each is a step of its own (log entry 6: DESIGN CHOICE, safe). -/

namespace Sys2Proof.Machine

/-- An operation line: decode the OPWORD, read the operands, drive the unit's input ports, evaluate, bind the outputs, go to the
next line. A word that names no operation is refused (30_encoding.md R72). -/
def runEval (w : OpWord) (args : List Operand) (outs : List (Option Nat)) (s : State) : Host.Outcome State Fault Refusal :=
  match decode w with
  | .invalid _ => .refused (.reservedOpword w)
  | .op i =>
    orRefuse (resolveAll s.names args) fun vs =>
    orRefuse (drive i.unitOf vs s.inputs) fun p =>
    andThen (exec i (s.setInputs p)) fun t =>
    orRefuse (bindOutputs outs (outputValues i.unitOf t.outputs) t.names) fun e =>
    .next (t.setNames e).nextLine

/-- The line a label stands at: the first that has it (log entry 18). -/
def findLabel (l : Nat) : List Stmt → Nat → Option Nat
  | [], _ => none
  | .label k :: rest, here => if k = l then some here else findLabel l rest (here + 1)
  | .eval _ _ _ :: rest, here => findLabel l rest (here + 1)
  | .assign _ _ :: rest, here => findLabel l rest (here + 1)
  | .branch _ _ _ :: rest, here => findLabel l rest (here + 1)
  | .goto _ :: rest, here => findLabel l rest (here + 1)

/-- `goto <label>` (30_encoding.md R75). -/
def runGoto (l : Nat) (s : State) : Host.Outcome State Fault Refusal :=
  match findLabel l s.script 0 with
  | some n => .next (s.setLine n)
  | none => .refused (.unknownLabel l)

/-- `if [not] <bit> goto <label>` (30_encoding.md R75): the host's own control flow, on one of its named Bits. R75 does not define
`<bit>`; that it is a name and never a literal is the model's choice (log entry 24: DESIGN CHOICE, safe). -/
def runBranch (negated : Bool) (cond l : Nat) (s : State) : Host.Outcome State Fault Refusal :=
  match lookup s.names cond with
  | some (.bit b) => if b != negated then runGoto l s else .next s.nextLine
  | some (.vec _) => .refused .valueKind
  | none => .refused (.unboundName cond)

/-- The host assignment of 95_test_vectors.md P1; no evaluation. -/
def runAssign (n : Nat) (v : Operand) (s : State) : Host.Outcome State Fault Refusal :=
  orRefuse (resolve s.names v) fun x => .next (s.setNames (bindName s.names n x)).nextLine

/-- One line of the script. -/
def runStmt (st : Stmt) (s : State) : Host.Outcome State Fault Refusal :=
  match st with
  | .eval w args outs => runEval w args outs s
  | .assign n v => runAssign n v s
  | .branch negated cond l => runBranch negated cond l s
  | .goto l => runGoto l s
  | .label _ => .next s.nextLine

/-- The host's next line. Where the script has ended nothing is evaluated and nothing changes: the end state is the host's
values then (92_eei_decisions.md D12), and the block itself initiates nothing (10_state.md R28; log entry 5: DEDUCED). -/
def runLine (s : State) : Host.Outcome State Fault Refusal :=
  match s.script[s.line]? with
  | none => .next s
  | some st => runStmt st s

/-- The line a host writes for an operation by its name, a preset's included: its OPWORD with the operands and the names of its
outputs (30_encoding.md R75, R76). -/
def opLine (i : Instr) (args : List Operand) (outs : List (Option Nat)) : Stmt := .eval (encode i) args outs

/-- The operation line that evaluates a word on the levels already at its unit's ports and discards the outputs. -/
def presentLine (w : OpWord) (s : State) : Stmt :=
  match decode w with
  | .op i =>
    .eval w ((inputValues i.unitOf s.inputs).map Operand.lit) (List.replicate (outputCount i.unitOf) none)
  | .invalid _ => .eval w [] []

/-- A script placed before the host, which stands at its first line (log entry 5). -/
def State.loadScript (s : State) (p : List Stmt) : State := { s with script := p, line := 0 }

end Sys2Proof.Machine
end

