-- ==== Sys2Proof/Machine/Step.lean ====
section
/-! DEFINITION. One step of the machine: the host's next line (10_state.md R28, R25). -/

namespace Sys2Proof.Machine

/-- One step. -/
def step (s : State) : Host.Outcome State Fault Refusal := runLine s

/-- The state in which the host's script is the one operation whose word is the low `nbits` bits of `w`, evaluated on the levels
already at its unit's ports (log entry 5: a program is a script that the host loads from outside the machine). -/
def State.withFetchWord (s : State) (nbits w : Nat) : State := s.loadScript [presentLine (tableWord nbits w) s]

end Sys2Proof.Machine
end

