-- ==== Sys2Proof/Config.lean ====
section
/-! DEFINITION. What the spec leaves as a named parameter of the machine.

00_scope.md section 4 lists the parameters. The widths WA, WB, WX, WY are the lengths of the operand lists and need no field
(R6). -/

namespace Sys2Proof

/-- The two readings of the 16-bit wrapper's flags (41_alu.md R129). -/
inductive Wrap16Flags where
  /-- `zr` and `ng` are the general ALU's. -/
  | general
  /-- `zr` and `ng` are derived again from the 16-bit result. -/
  | recomputed
deriving DecidableEq, Repr, Inhabited

/-- WRAP16_FLAGS is OPEN (41_alu.md R129, 93_implementation_defined.md U1): a constant with no body, so that nothing can be
proved of its value (log entry 16; safe). -/
opaque Config.wrap16Flags : Wrap16Flags

/-- T_SETTLE is OPEN, per unit and width (70_reset_and_hazards.md R172, 93_implementation_defined.md U3): a function with no
body. Nothing reads it: "A model has no time" (R172), and "No rule depends on its value" (U3; log entry 10: unsafe for a consumer
that samples an output before it has settled). -/
opaque Config.tSettle : UnitName → Nat → Nat

end Sys2Proof
end

