-- ==== Sys2Proof/Machine/Wrapper.lean ====
section
/-! DEFINITION. The fixed 16-bit wrapper over the ALU (41_alu.md R128, R129).

It is outside the core and no OPWORD names it (30_encoding.md R71), so no step evaluates it; it is here so that the spec's rules
about it can be stated (log entries 16 and 17). -/

namespace Sys2Proof.Machine

/-- `alu16`: the general result padded or cut to 16 bits after the ALU has run at its own width (41_alu.md R128), its flags as
the parameter says (R129). -/
def alu16 (flags : Wrap16Flags) (x y : Bits) (c : Ctrl) : AluOut :=
  let r := alu x y c
  let out16 := zext 16 r.out
  match flags with
  | .general => { out := out16, zr := r.zr, ng := r.ng }
  | .recomputed => withFlags out16

/-- The wrapper under the machine's own, open, choice of WRAP16_FLAGS (41_alu.md R129). -/
def wrapper (x y : Bits) (c : Ctrl) : AluOut := alu16 Config.wrap16Flags x y c

end Sys2Proof.Machine
end

