-- ==== Sys2Proof/Safety.lean ====
section
/-! DEFINITION. What counts as a safe step and a safe run, and the invariant of the machine, in the terms the statements use. -/

namespace Sys2Proof.Machine

/-- A safe step: the machine goes on. It never faults (60_exceptions.md R150); it may refuse at the boundary (R155). -/
def Completes (s : State) : Prop := ∃ t, step s = .next t

/-- A safe run: `k` steps, none of which stops. -/
def RunsSafely (k : Nat) (s : State) : Prop := ∃ t, Host.Core.run Sys2Proof.core k s = .next t

/-- An evaluation completes and changes nothing but the ALU's outputs, of which `P` holds. -/
def AluAnswers (i : Instr) (s : State) (P : AluOut → Prop) : Prop :=
  ∃ o : AluOut, exec i s = .next { s with outputs := { s.outputs with alu := o } } ∧ P o

/-- Whether a value is a vector. -/
def Value.isVec : Value → Bool
  | .bit _ => false
  | .vec _ => true

/-- Which of a unit's operand ports are vectors, in the ports' order (30_encoding.md R61 to R65). -/
def vectorPorts : UnitName → List Bool
  | .ha => [false, false]
  | .fa => [false, false, false]
  | .add => [true, true]
  | .inc => [true]
  | .alu => [true, true]

/-- Some line of the script has this label. -/
def HasLabel (l : Nat) (p : List Stmt) : Prop := Stmt.label l ∈ p

/-- What the next line needs in order to complete: the operands have values of the ports' kinds (10_state.md R30,
70_reset_and_hazards.md R171), the OPWORD names an operation (30_encoding.md R72), each output has a place, each branch reads a
name that holds a Bit (log entry 24), each label taken exists (R75). -/
def LineReady (s : State) : Prop :=
  match s.script[s.line]? with
  | none => True
  | some (.eval w args outs) =>
    ∃ i vs, decode w = .op i ∧ resolveAll s.names args = .ok vs ∧ vs.map Value.isVec = vectorPorts i.unitOf ∧
      outs.length = outputCount i.unitOf
  | some (.assign _ v) => ∃ x, resolve s.names v = .ok x
  | some (.branch negated cond l) => ∃ b, lookup s.names cond = some (.bit b) ∧ (b ≠ negated → HasLabel l s.script)
  | some (.goto l) => HasLabel l s.script
  | some (.label _) => True

/-- The half adder's outputs can be: its sum and carry are never both 1 (40_adders.md R80, "Corner cases"). -/
abbrev HaOut.possible (o : HaOut) : Prop := ¬ (o.sum = true ∧ o.carry = true)

/-- The adder's outputs can be: at width 0 there is no carry (40_adders.md R85). -/
abbrev AddOut.possible (o : AddOut) : Prop := o.sum = [] → o.carry = false

/-- The incrementer's outputs can be: width at least 1 (30_encoding.md R64), and an overflow leaves all zeros (40_adders.md R91). -/
abbrev IncOut.possible (o : IncOut) : Prop := o.result ≠ [] ∧ (o.overflow = true → ∀ b ∈ o.result, b = false)

/-- The ALU's outputs can be: `zr` is 1 exactly when every bit of `out` is 0 and `ng` is the last bit of `out`, 0 when it is
empty (41_alu.md R120). -/
abbrev AluOut.possible (o : AluOut) : Prop :=
  (o.zr = true ↔ ∀ b ∈ o.out, b = false) ∧ (o.ng = true ↔ o.out.getLast? = some true)

/-- The machine's invariant: every unit's outputs are outputs that unit can have, and the host's names are in canonical form. -/
abbrev State.Inv (s : State) : Prop :=
  s.outputs.ha.possible ∧ s.outputs.add.possible ∧ s.outputs.inc.possible ∧ s.outputs.alu.possible ∧
    namesCanonical s.names = true

end Sys2Proof.Machine
end

