-- ==== Sys2Proof/Certificates/Slice0/Obligations.lean ====
section
/-! DEFINITION. The statements for the provers. Each docstring names the rule of spec/ it formalises; one that rests on a
choice of the model, or on an inference the spec marks as its own, says so. -/

open Sys2Proof Sys2Proof.Machine

/-! ## Half adder and full adder -/

/-- 40_adders.md R80: the OPWORD, the two gates, and nothing else changed. -/
def Obligations.HalfAdderEvaluation : Prop :=
  decode 0x000#9 = .op .ha ∧ encode .ha = 0x000#9 ∧
  ∀ s : State, exec .ha s = .next { s with outputs := { s.outputs with
    ha := { sum := s.inputs.ha.a ^^ s.inputs.ha.b, carry := s.inputs.ha.a && s.inputs.ha.b } } }

/-- 40_adders.md R81 (an inference the spec marks as its own). -/
def Obligations.HalfAdderArithmeticLaw : Prop :=
  ∀ s : State, ∃ o : HaOut, exec .ha s = .next { s with outputs := { s.outputs with ha := o } } ∧
    2 * o.carry.toNat + o.sum.toNat = s.inputs.ha.a.toNat + s.inputs.ha.b.toNat

/-- 40_adders.md R82: two half adders and the OR of their carries, the OPWORD, and nothing else changed. -/
def Obligations.FullAdderEvaluation : Prop :=
  decode 0x040#9 = .op .fa ∧ encode .fa = 0x040#9 ∧
  ∀ s : State,
    let a := s.inputs.fa.a
    let b := s.inputs.fa.b
    let c := s.inputs.fa.carryIn
    exec .fa s = .next { s with outputs := { s.outputs with
      fa := { sum := (a ^^ b) ^^ c, carryOut := (a && b) || ((a ^^ b) && c) } } }

/-- 40_adders.md R83: the outputs count the three inputs, and the two half-adder carries are never both 1. -/
def Obligations.FullAdderSumsThreeBits : Prop :=
  ∀ s : State,
    let a := s.inputs.fa.a
    let b := s.inputs.fa.b
    let c := s.inputs.fa.carryIn
    (∃ o : FaOut, exec .fa s = .next { s with outputs := { s.outputs with fa := o } } ∧
      2 * o.carryOut.toNat + o.sum.toNat = a.toNat + b.toNat + c.toNat) ∧
    ¬ ((halfAdder a b).carry = true ∧ (halfAdder (halfAdder a b).sum c).carry = true)

/-! ## Ripple-carry adder -/

/-- 40_adders.md R84: the OPWORD, the width, and the chain of full adders whose carry starts at 0, with nothing else changed.
`c i` is the carry into position `i`. -/
def Obligations.AdderCarryChain : Prop :=
  decode 0x080#9 = .op .add ∧ encode .add = 0x080#9 ∧
  ∀ s : State,
    let a := s.inputs.add.a
    let b := s.inputs.add.b
    let n := max a.length b.length
    ∃ (c : Nat → Bit) (o : AddOut),
      exec .add s = .next { s with outputs := { s.outputs with add := o } } ∧
      o.sum.length = n ∧ c 0 = false ∧ o.carry = c n ∧
      ∀ i < n, bitAt o.sum i = ((bitAt a i ^^ bitAt b i) ^^ c i) ∧
        c (i + 1) = ((bitAt a i && bitAt b i) || ((bitAt a i ^^ bitAt b i) && c i))

/-- 40_adders.md section 3, carry output: both operands empty give an empty sum and no carry, and a single empty operand lets
the other pass (the second part is an inference the spec marks as its own). -/
def Obligations.AdderEmptyOperands : Prop :=
  ∀ (s : State) (v : Bits),
    exec .add { s with inputs := { s.inputs with add := { a := v, b := [] } } } =
      .next { s with inputs := { s.inputs with add := { a := v, b := [] } },
                     outputs := { s.outputs with add := { sum := v, carry := false } } } ∧
    exec .add { s with inputs := { s.inputs with add := { a := [], b := v } } } =
      .next { s with inputs := { s.inputs with add := { a := [], b := v } },
                     outputs := { s.outputs with add := { sum := v, carry := false } } }

/-- 40_adders.md section 3, carry dependency: a position of the sum depends on no higher position of the operands. -/
def Obligations.AdderLowBitsIgnoreHighBits : Prop :=
  ∀ (s t : State) (k : Nat),
    (∀ i < k, bitAt s.inputs.add.a i = bitAt t.inputs.add.a i ∧ bitAt s.inputs.add.b i = bitAt t.inputs.add.b i) →
    ∃ o r : AddOut,
      exec .add s = .next { s with outputs := { s.outputs with add := o } } ∧
      exec .add t = .next { t with outputs := { t.outputs with add := r } } ∧
      ∀ i < k, i < o.sum.length → i < r.sum.length → bitAt o.sum i = bitAt r.sum i

/-- 40_adders.md R87 (an inference the spec marks as its own): the sum wraps at its width and the carry is what is lost. -/
def Obligations.AdderArithmeticLaw : Prop :=
  ∀ s : State,
    let a := s.inputs.add.a
    let b := s.inputs.add.b
    let n := max a.length b.length
    ∃ o : AddOut, exec .add s = .next { s with outputs := { s.outputs with add := o } } ∧
      o.sum.length = n ∧ uint o.sum + 2 ^ n * o.carry.toNat = uint a + uint b ∧
      uint o.sum = (uint a + uint b) % 2 ^ n ∧ (o.carry = true ↔ 2 ^ n ≤ uint a + uint b)

/-- 40_adders.md R88 (for unequal widths, an inference the spec marks as its own): exchanging the operands leaves the outputs
as they are. -/
def Obligations.AdderIsCommutative : Prop :=
  ∀ s : State, ∃ o : AddOut,
    exec .add s = .next { s with outputs := { s.outputs with add := o } } ∧
    exec .add { s with inputs := { s.inputs with add := { a := s.inputs.add.b, b := s.inputs.add.a } } } =
      .next { s with inputs := { s.inputs with add := { a := s.inputs.add.b, b := s.inputs.add.a } },
                     outputs := { s.outputs with add := o } }

/-- 40_adders.md R89 (an inference the spec marks as its own, on a formula for `sint` it takes from general knowledge, log entry
14): the signed reading of the sum is the signed sum, wrapped. -/
def Obligations.AdderSignedReading : Prop :=
  ∀ s : State,
    let a := s.inputs.add.a
    let b := s.inputs.add.b
    let n := max a.length b.length
    1 ≤ n →
    ∃ o : AddOut, exec .add s = .next { s with outputs := { s.outputs with add := o } } ∧
      -(2 ^ (n - 1) : Int) ≤ sint o.sum ∧ sint o.sum < 2 ^ (n - 1) ∧
      (2 ^ n : Int) ∣ sint o.sum - (sint (zext n a) + sint (zext n b))

/-! ## Incrementer -/

/-- 40_adders.md section 4, definition: the incrementer's outputs are the adder's on `(a, [1])`; its OPWORD; nothing else changed.
The width clause, `max(len(a), 1)`, is an inference the spec marks as its own (from the adder's width), and at width 0 it also
rests on log entry 8. -/
def Obligations.IncrementerIsAdderWithOne : Prop :=
  decode 0x0C0#9 = .op .inc ∧ encode .inc = 0x0C0#9 ∧
  ∀ s : State, ∃ r : AddOut,
    exec .add { s with inputs := { s.inputs with add := { a := s.inputs.inc.a, b := [true] } } } =
      .next { s with inputs := { s.inputs with add := { a := s.inputs.inc.a, b := [true] } },
                     outputs := { s.outputs with add := r } } ∧
    exec .inc s = .next { s with outputs := { s.outputs with inc := { result := r.sum, overflow := r.carry } } } ∧
    r.sum.length = max s.inputs.inc.a.length 1

/-- 40_adders.md R91, with 90_conflicts.md C1 for the empty vector. -/
def Obligations.IncrementerOverflow : Prop :=
  ∀ s : State,
    let a := s.inputs.inc.a
    ∃ o : IncOut, exec .inc s = .next { s with outputs := { s.outputs with inc := o } } ∧
      (a ≠ [] → (o.overflow = true ↔ ∀ b ∈ a, b = true) ∧ (o.overflow = true → o.result = zeros a.length)) ∧
      (a = [] → o.result = [true] ∧ o.overflow = false)

/-- 40_adders.md R92 (an inference the spec marks as its own). -/
def Obligations.IncrementerArithmeticLaw : Prop :=
  ∀ s : State,
    let a := s.inputs.inc.a
    let m := max a.length 1
    ∃ o : IncOut, exec .inc s = .next { s with outputs := { s.outputs with inc := o } } ∧
      o.result.length = m ∧ uint o.result + 2 ^ m * o.overflow.toNat = uint a + 1

/-! ## ALU -/

/-- 41_alu.md R125: the six stages at the working width, the OPWORD's bits, and nothing else changed. `xp` and `yp` are the
conditioned bits, `k i` the carry into position `i` of an addition. -/
def Obligations.AluSixStages : Prop :=
  ∀ c : Ctrl,
    (decode (encode (.alu c)) = .op (.alu c) ∧ (encode (.alu c)).extractLsb' 6 3 = 0b100#3 ∧
      (encode (.alu c)).getLsbD 5 = c.zx ∧ (encode (.alu c)).getLsbD 4 = c.nx ∧ (encode (.alu c)).getLsbD 3 = c.zy ∧
      (encode (.alu c)).getLsbD 2 = c.ny ∧ (encode (.alu c)).getLsbD 1 = c.f ∧ (encode (.alu c)).getLsbD 0 = c.no) ∧
    ∀ s : State,
      let x := s.inputs.alu.x
      let y := s.inputs.alu.y
      let n := max x.length y.length
      let xp := fun i => c.nx ^^ (if c.zx then false else bitAt x i)
      let yp := fun i => c.ny ^^ (if c.zy then false else bitAt y i)
      ∃ (k : Nat → Bit) (o : AluOut),
        exec (.alu c) s = .next { s with outputs := { s.outputs with alu := o } } ∧
        o.out.length = n ∧
        (c.f = true → k 0 = false ∧ ∀ i < n,
          bitAt o.out i = (c.no ^^ ((xp i ^^ yp i) ^^ k i)) ∧
          k (i + 1) = ((xp i && yp i) || ((xp i ^^ yp i) && k i))) ∧
        (c.f = false → ∀ i < n, bitAt o.out i = (c.no ^^ (xp i && yp i))) ∧
        (o.zr = true ↔ ∀ i < n, bitAt o.out i = false) ∧
        o.ng = (if 1 ≤ n then bitAt o.out (n - 1) else false)

/-- 41_alu.md R110 and R111, seen at the ALU's output: ANDed with all ones, the conditioned x side is the result, and
symmetrically for the y side. Each bit is zero-extended, then zeroed, then inverted. -/
def Obligations.ConditionerAtTheOutput : Prop :=
  ∀ (z neg : Bit) (s : State),
    let x := s.inputs.alu.x
    let y := s.inputs.alu.y
    let n := max x.length y.length
    let side := fun (v : Bits) (i : Nat) =>
      let t := if i < v.length then bitAt v i else false
      let t := if z then false else t
      if neg then !t else t
    AluAnswers (.alu { zx := z, nx := neg, zy := true, ny := true, f := false, no := false }) s
      (fun o => o.out.length = n ∧ o.out = condition x z neg n ∧ ∀ i < n, bitAt o.out i = side x i) ∧
    AluAnswers (.alu { zx := true, nx := true, zy := z, ny := neg, f := false, no := false }) s
      (fun o => o.out.length = n ∧ o.out = condition y z neg n ∧ ∀ i < n, bitAt o.out i = side y i)

/-- 41_alu.md section 1, zeroing before inversion and the inverted pad bits (inferences the spec marks as its own). -/
def Obligations.ConditionerZeroesBeforeInverting : Prop :=
  ∀ (v : Bits) (n : Nat),
    condition v false false n = zext n v ∧ condition v false true n = (zext n v).map (fun b => !b) ∧
    condition v true false n = zeros n ∧ condition v true true n = ones n ∧
    ∀ i, v.length ≤ i → i < n → bitAt (condition v false true n) i = true

/-- 41_alu.md R113: with `f` set and `no` clear the result is the ripple-carry adder's sum of the conditioned operands, and its
carry reaches no output. -/
def Obligations.AluAdditionIsTheAddersSum : Prop :=
  ∀ (c : Ctrl) (s : State),
    let n := max s.inputs.alu.x.length s.inputs.alu.y.length
    let xp := condition s.inputs.alu.x c.zx c.nx n
    let yp := condition s.inputs.alu.y c.zy c.ny n
    c.f = true → c.no = false →
    ∃ r : AddOut,
      exec .add { s with inputs := { s.inputs with add := { a := xp, b := yp } } } =
        .next { s with inputs := { s.inputs with add := { a := xp, b := yp } }, outputs := { s.outputs with add := r } } ∧
      AluAnswers (.alu c) s (fun o => o.out = r.sum ∧ o.out.length = n)

/-- 41_alu.md R114: with `f` clear and `no` clear the result is the bitwise AND of the conditioned operands. -/
def Obligations.AluAndPath : Prop :=
  ∀ (c : Ctrl) (s : State),
    let n := max s.inputs.alu.x.length s.inputs.alu.y.length
    c.f = false → c.no = false →
    AluAnswers (.alu c) s (fun o => o.out.length = n ∧ ∀ i < n, bitAt o.out i =
      (bitAt (condition s.inputs.alu.x c.zx c.nx n) i && bitAt (condition s.inputs.alu.y c.zy c.ny n) i))

/-- 41_alu.md R116: the output negator inverts every bit of the function unit's result if `no` is set, and none otherwise. -/
def Obligations.OutputNegator : Prop :=
  ∀ (c : Ctrl) (s : State),
    let n := max s.inputs.alu.x.length s.inputs.alu.y.length
    let outF := functionUnit (condition s.inputs.alu.x c.zx c.nx n) (condition s.inputs.alu.y c.zy c.ny n) c.f n
    AluAnswers (.alu c) s (fun o => o.out.length = n ∧ o.out = if c.no then outF.map (fun b => !b) else outF)

/-- 41_alu.md R118 and R119, for `alu` and every preset: the zero flag and the negative flag of the result. -/
def Obligations.FlagsOfEveryAluEvaluation : Prop :=
  ∀ (i : Instr) (s : State), i.unitOf = .alu →
    AluAnswers i s (fun o => (o.zr = true ↔ ∀ k < o.out.length, bitAt o.out k = false) ∧
      (1 ≤ o.out.length → o.ng = bitAt o.out (o.out.length - 1)) ∧ (o.out.length = 0 → o.ng = false))

/-- 41_alu.md R117: the flags are functions of `out`; evaluations that agree in `out` agree in both. -/
def Obligations.FlagsDependOnOutOnly : Prop :=
  ∀ (i j : Instr) (s t : State), i.unitOf = .alu → j.unitOf = .alu →
    AluAnswers i s fun o => AluAnswers j t fun r => o.out = r.out → o.zr = r.zr ∧ o.ng = r.ng

/-- 41_alu.md section 4 (the last clause is an inference the spec marks as its own): `zr` means `out` is `zeros(N)`, and the
two flags are never both 1. -/
def Obligations.FlagsAreExclusive : Prop :=
  ∀ (i : Instr) (s : State), i.unitOf = .alu →
    AluAnswers i s (fun o => o.out.length = max s.inputs.alu.x.length s.inputs.alu.y.length ∧
      (o.zr = true ↔ o.out = zeros o.out.length) ∧ ¬ (o.zr = true ∧ o.ng = true))

/-- 41_alu.md section 6, width 0 (an inference the spec marks as its own). -/
def Obligations.AluAtWidthZero : Prop :=
  ∀ (i : Instr) (s : State), i.unitOf = .alu → s.inputs.alu.x = [] → s.inputs.alu.y = [] →
    exec i s = .next { s with outputs := { s.outputs with alu := { out := [], zr := true, ng := false } } }

/-! ## Presets

30_encoding.md R76: the names of fourteen presets are from general knowledge (log entry 15) and the function column is an
inference the spec marks as its own. -/

/-- Every preset runs as the `alu` it expands to and has its word; decoding never produces a preset. -/
def Obligations.PresetIsAlias : Prop :=
  (∀ i : Instr, i.wellFormed = false → i.expand.wellFormed = true ∧ i.expand.unitOf = .alu ∧
    encode i = encode i.expand ∧ decode (encode i) = .op i.expand ∧ ∀ s : State, exec i s = exec i.expand s) ∧
  ∀ (w : OpWord) (i : Instr), decode w = .op i → i.wellFormed = true

/-- The OPWORD column of 30_encoding.md R76. -/
def Obligations.PresetWords : Prop :=
  encode .aluZero = 0x12A#9 ∧ encode .aluOne = 0x13F#9 ∧ encode .aluNeg1 = 0x13A#9 ∧ encode .aluX = 0x10C#9 ∧
  encode .aluY = 0x130#9 ∧ encode .aluNotx = 0x10D#9 ∧ encode .aluNoty = 0x131#9 ∧ encode .aluNegx = 0x10F#9 ∧
  encode .aluNegy = 0x133#9 ∧ encode .aluIncx = 0x11F#9 ∧ encode .aluIncy = 0x137#9 ∧ encode .aluDecx = 0x10E#9 ∧
  encode .aluDecy = 0x132#9 ∧ encode .aluAdd = 0x102#9 ∧ encode .aluSubxy = 0x113#9 ∧ encode .aluSubyx = 0x107#9 ∧
  encode .aluAnd = 0x100#9 ∧ encode .aluOr = 0x115#9

/-- `alu.zero`, `alu.one`, `alu.neg1`: the constants 0, 1 and all ones, modulo `2^N`. -/
def Obligations.PresetConstants : Prop :=
  ∀ s : State,
    let n := max s.inputs.alu.x.length s.inputs.alu.y.length
    AluAnswers .aluZero s (fun o => o.out = zeros n) ∧
    AluAnswers .aluOne s (fun o => o.out.length = n ∧ uint o.out = 1 % 2 ^ n) ∧
    AluAnswers .aluNeg1 s (fun o => o.out = ones n)

/-- `alu.x`, `alu.y`, `alu.notx`, `alu.noty`: an operand, zero-extended, and its bitwise inverse. -/
def Obligations.PresetOperands : Prop :=
  ∀ s : State,
    let x := s.inputs.alu.x
    let y := s.inputs.alu.y
    let n := max x.length y.length
    AluAnswers .aluX s (fun o => o.out = zext n x) ∧
    AluAnswers .aluY s (fun o => o.out = zext n y) ∧
    AluAnswers .aluNotx s (fun o => o.out = (zext n x).map (fun b => !b)) ∧
    AluAnswers .aluNoty s (fun o => o.out = (zext n y).map (fun b => !b))

/-- `alu.negx`, `alu.negy`: the two's-complement negation modulo `2^N`. -/
def Obligations.PresetNegations : Prop :=
  ∀ s : State,
    let x := s.inputs.alu.x
    let y := s.inputs.alu.y
    let n := max x.length y.length
    AluAnswers .aluNegx s (fun o => o.out.length = n ∧ (uint o.out + uint x) % 2 ^ n = 0) ∧
    AluAnswers .aluNegy s (fun o => o.out.length = n ∧ (uint o.out + uint y) % 2 ^ n = 0)

/-- `alu.incx`, `alu.incy`, `alu.decx`, `alu.decy`: an operand plus or minus 1 modulo `2^N`. -/
def Obligations.PresetIncrementsAndDecrements : Prop :=
  ∀ s : State,
    let x := s.inputs.alu.x
    let y := s.inputs.alu.y
    let n := max x.length y.length
    AluAnswers .aluIncx s (fun o => o.out.length = n ∧ uint o.out = (uint x + 1) % 2 ^ n) ∧
    AluAnswers .aluIncy s (fun o => o.out.length = n ∧ uint o.out = (uint y + 1) % 2 ^ n) ∧
    AluAnswers .aluDecx s (fun o => o.out.length = n ∧ (uint o.out + 1) % 2 ^ n = uint x % 2 ^ n) ∧
    AluAnswers .aluDecy s (fun o => o.out.length = n ∧ (uint o.out + 1) % 2 ^ n = uint y % 2 ^ n)

/-- `alu.add`, `alu.subxy`, `alu.subyx`: sum and differences modulo `2^N`. -/
def Obligations.PresetSumsAndDifferences : Prop :=
  ∀ s : State,
    let x := s.inputs.alu.x
    let y := s.inputs.alu.y
    let n := max x.length y.length
    AluAnswers .aluAdd s (fun o => o.out.length = n ∧ uint o.out = (uint x + uint y) % 2 ^ n) ∧
    AluAnswers .aluSubxy s (fun o => o.out.length = n ∧ (uint o.out + uint y) % 2 ^ n = uint x % 2 ^ n) ∧
    AluAnswers .aluSubyx s (fun o => o.out.length = n ∧ (uint o.out + uint x) % 2 ^ n = uint y % 2 ^ n)

/-- `alu.and`, `alu.or`: bitwise on the zero-extended operands. -/
def Obligations.PresetBitwise : Prop :=
  ∀ s : State,
    let x := s.inputs.alu.x
    let y := s.inputs.alu.y
    let n := max x.length y.length
    AluAnswers .aluAnd s (fun o => o.out.length = n ∧ ∀ i < n, bitAt o.out i = (bitAt x i && bitAt y i)) ∧
    AluAnswers .aluOr s (fun o => o.out.length = n ∧ ∀ i < n, bitAt o.out i = (bitAt x i || bitAt y i))

/-- 30_encoding.md section 4, width 1 (an inference the spec marks as its own): the constant 1 is its own sign bit. -/
def Obligations.ConstantOneAtWidthOne : Prop :=
  ∀ s : State, max s.inputs.alu.x.length s.inputs.alu.y.length = 1 →
    exec .aluOne s = .next { s with outputs := { s.outputs with alu := { out := [true], zr := false, ng := true } } }

/-- 41_alu.md section 5, the sign of a difference (an inference the spec marks as its own, on its formula for `sint`, log entry
14): after `alu.subxy`, `ng` is the sign of the wrapped result, and equals the signed comparison exactly when the difference
does not wrap. -/
def Obligations.SignOfDifference : Prop :=
  ∀ s : State,
    let n := max s.inputs.alu.x.length s.inputs.alu.y.length
    let p := sint (zext n s.inputs.alu.x)
    let q := sint (zext n s.inputs.alu.y)
    1 ≤ n →
    AluAnswers .aluSubxy s (fun o => (o.ng = true ↔ sint o.out < 0) ∧
      ((o.ng = true ↔ p < q) ↔ (-(2 ^ (n - 1) : Int) ≤ p - q ∧ p - q < 2 ^ (n - 1))))

/-! ## Vectors and gates -/

/-- 20_memory.md R40: reading at or beyond the width gives 0; below it, the bit itself. -/
def Obligations.ReadBeyondWidthIsZero : Prop :=
  ∀ (v : Bits) (i : Nat), (v.length ≤ i → bitAt v i = false) ∧ ∀ h : i < v.length, bitAt v i = v[i]

/-- 20_memory.md section 1, bit order, with `uint` of 00_scope.md R7: bit `i` has place value `2^i`. -/
def Obligations.PlaceValue : Prop :=
  ∀ v : Bits, uint v = ∑ i ∈ Finset.range v.length, (bitAt v i).toNat * 2 ^ i

/-- 20_memory.md R40 and 30_encoding.md R68, at the units: an operand padded with zeros to the working width gives the outputs
the shorter operand gives, for the adder and for every ALU operation. -/
def Obligations.ZeroExtensionIsInvisible : Prop :=
  ∀ s : State,
    (let n := max s.inputs.add.a.length s.inputs.add.b.length
     ∃ o : AddOut, exec .add s = .next { s with outputs := { s.outputs with add := o } } ∧
      exec .add { s with inputs := { s.inputs with add := { a := zext n s.inputs.add.a, b := zext n s.inputs.add.b } } } =
        .next { s with inputs := { s.inputs with add := { a := zext n s.inputs.add.a, b := zext n s.inputs.add.b } },
                       outputs := { s.outputs with add := o } }) ∧
    (let n := max s.inputs.alu.x.length s.inputs.alu.y.length
     ∀ i : Instr, i.unitOf = .alu →
      AluAnswers i s fun o =>
        AluAnswers i { s with inputs := { s.inputs with
          alu := { x := zext n s.inputs.alu.x, y := zext n s.inputs.alu.y } } } fun r => r = o)

/-- 00_scope.md section 6 (the tables are from general knowledge, log entry 13). -/
def Obligations.GateTruthTables : Prop :=
  ∀ a b : Bit, gateNot a = !a ∧ gateAnd a b = (a && b) ∧ gateOr a b = (a || b) ∧ (gateXor a b = true ↔ a ≠ b)

/-! ## Evaluations -/

/-- 10_state.md R26: an evaluation, of any operation, does not change its inputs. -/
def Obligations.InputsAreReadOnly : Prop :=
  ∀ (i : Instr) (s : State), ∃ t, exec i s = .next t ∧ t.inputs = s.inputs

/-- The frame of every operation (10_state.md sections 1 and 3; the host's fields are the model's, log entry 1): nothing changes
but the outputs of the unit evaluated. -/
def Obligations.EvaluationFrame : Prop :=
  ∀ (i : Instr) (s t : State), exec i s = .next t →
    t.inputs = s.inputs ∧ t.names = s.names ∧ t.script = s.script ∧ t.line = s.line ∧
    (i.unitOf ≠ .ha → t.outputs.ha = s.outputs.ha) ∧ (i.unitOf ≠ .fa → t.outputs.fa = s.outputs.fa) ∧
    (i.unitOf ≠ .add → t.outputs.add = s.outputs.add) ∧ (i.unitOf ≠ .inc → t.outputs.inc = s.outputs.inc) ∧
    (i.unitOf ≠ .alu → t.outputs.alu = s.outputs.alu)

/-- 10_state.md R25: equal inputs give equal outputs, whatever else the two states hold. -/
def Obligations.EqualInputsEqualOutputs : Prop :=
  ∀ (i : Instr) (s t : State), inputValues i.unitOf s.inputs = inputValues i.unitOf t.inputs →
    ∃ s' t', exec i s = .next s' ∧ exec i t = .next t' ∧
      outputValues i.unitOf s'.outputs = outputValues i.unitOf t'.outputs

/-- 10_state.md section 4: evaluations of different units, in either order, leave the same outputs. -/
def Obligations.EvaluationOrderIsInvisible : Prop :=
  ∀ (i j : Instr) (s : State), i.unitOf ≠ j.unitOf →
    ∃ t, andThen (exec i s) (exec j) = .next t ∧ andThen (exec j s) (exec i) = .next t

/-- 60_exceptions.md R150 and R151: every operation completes on every input, and no step faults. -/
def Obligations.EveryEvaluationCompletes : Prop :=
  (∀ (i : Instr) (s : State), ∃ o : Outputs, exec i s = .next { s with outputs := o }) ∧
  ∀ (s : State) (r : Fault), step s ≠ .fault r

/-! ## The 16-bit wrapper (outside the core) -/

/-- 41_alu.md section 7, the wrapper's result: the general result's bits below 16, padded with zeros, for either flag reading
and for the machine's own. -/
def Obligations.WrapperPadsOrTruncates : Prop :=
  ∀ (x y : Bits) (c : Ctrl),
    (∀ p : Wrap16Flags, (alu16 p x y c).out.length = 16 ∧ ∀ i < 16, bitAt (alu16 p x y c).out i = bitAt (alu x y c).out i) ∧
    (wrapper x y c).out = zext 16 (alu x y c).out

/-- 41_alu.md section 7, the wrapper's flags (the parameter is the spec's own, log entry 16): what each reading gives, and that
they agree at width 16. -/
def Obligations.WrapperFlagReadings : Prop :=
  ∀ (x y : Bits) (c : Ctrl),
    (alu16 .general x y c).zr = (alu x y c).zr ∧ (alu16 .general x y c).ng = (alu x y c).ng ∧
    ((alu16 .recomputed x y c).zr = true ↔ ∀ i < 16, bitAt (alu x y c).out i = false) ∧
    (alu16 .recomputed x y c).ng = bitAt (alu x y c).out 15 ∧
    (max x.length y.length = 16 → ∀ p : Wrap16Flags, alu16 p x y c = alu x y c)

/-! ## OPWORD (the spec's own harness word, log entry 11) -/

/-- Decoding and encoding agree, both ways: every core operation is read back from its word with all its controls, and every
word that names an operation is that operation's word. -/
def Obligations.DecodeEncodeAgree : Prop :=
  (∀ i : Instr, i.wellFormed = true → decode (encode i) = .op i) ∧
  ∀ (w : OpWord) (i : Instr), decode w = .op i → encode i = w

/-- 30_encoding.md section 3, decode, bit by bit for every word. -/
def Obligations.DecodeOfEveryWord : Prop :=
  ∀ w : OpWord,
    (w.getLsbD 8 = true → w.getLsbD 7 = false → w.getLsbD 6 = false →
      decode w = .op (.alu { zx := w.getLsbD 5, nx := w.getLsbD 4, zy := w.getLsbD 3, ny := w.getLsbD 2,
                             f := w.getLsbD 1, no := w.getLsbD 0 })) ∧
    (w.getLsbD 8 = true → (w.getLsbD 7 = true ∨ w.getLsbD 6 = true) → decode w = .invalid .reservedUnit) ∧
    (w.getLsbD 8 = false → (∃ k < 6, w.getLsbD k = true) → decode w = .invalid .nonzeroCtrl) ∧
    (w.getLsbD 8 = false → (∀ k < 6, w.getLsbD k = false) →
      decode w = .op (if w.getLsbD 7 then (if w.getLsbD 6 then .inc else .add) else (if w.getLsbD 6 then .fa else .ha)))

/-- A few words of 30_encoding.md R71, R72 and R76, written out. -/
def Obligations.DecodeSampleWords : Prop :=
  decode 0b000000000#9 = .op .ha ∧ decode 0b001000000#9 = .op .fa ∧ decode 0b010000000#9 = .op .add ∧
  decode 0b011000000#9 = .op .inc ∧
  decode 0b100010011#9 = .op (.alu { zx := false, nx := true, zy := false, ny := false, f := true, no := true }) ∧
  decode 0b101000000#9 = .invalid .reservedUnit ∧ decode 0b010000001#9 = .invalid .nonzeroCtrl

/-- 30_encoding.md section 3: "There are 4 + 64 = 68 valid OPWORDs out of 512." -/
def Obligations.ValidWordCount : Prop :=
  ((List.range 512).filter fun w => (decodeTableWord 9 w).isSome).length = 68

/-! ## Steps -/

/-- A step runs the decoded operation: at an operation line whose word decodes and whose operands reach the ports, the step is
the operation's evaluation, and then the outputs are bound and the host is at its next line (10_state.md R25, 30_encoding.md
R75; the host's fields are the model's, log entries 1 and 7). -/
def Obligations.StepRunsDecodedOperation : Prop :=
  ∀ (s t : State) (w : OpWord) (args : List Operand) (outs : List (Option Nat)) (i : Instr) (vs : List Value) (p : Inputs)
    (e : List (Nat × Value)),
    s.script[s.line]? = some (.eval w args outs) → decode w = .op i → resolveAll s.names args = .ok vs →
    drive i.unitOf vs s.inputs = .ok p → exec i { s with inputs := p } = .next t →
    bindOutputs outs (outputValues i.unitOf t.outputs) t.names = .ok e →
    step s = .next { t with names := e, line := t.line + 1 }

/-- A word placed for the next step is run by it, on the levels already at its unit's ports (log entry 5). -/
def Obligations.StepRunsPlacedWord : Prop :=
  ∀ (s : State) (nbits w : Nat) (i : Instr), decodeTableWord nbits w = some i →
    ∃ t, exec i (s.withFetchWord nbits w) = .next t ∧ step (s.withFetchWord nbits w) = .next { t with line := 1 } ∧
      t.inputs = s.inputs ∧ t.names = s.names

/-- 30_encoding.md section 3, reserved words (the spec's own decision, D7): a word that names no operation is refused, and no
unit is evaluated. -/
def Obligations.ReservedWordIsRefused : Prop :=
  ∀ (s : State) (w : OpWord) (args : List Operand) (outs : List (Option Nat)),
    s.script[s.line]? = some (.eval w args outs) →
    (w.getLsbD 8 = true ∧ (w.getLsbD 7 = true ∨ w.getLsbD 6 = true) ∨ w.getLsbD 8 = false ∧ ∃ k < 6, w.getLsbD k = true) →
    step s = .refused (.reservedOpword w)

/-- A step completes exactly when the host's next line is ready: its word names an operation, its operands are driven with
values of the ports' kinds, its outputs have a place, its branch reads a name that holds a Bit, its label exists (log entries 9,
19 and 24). -/
def Obligations.StepCompletesExactlyWhenReady : Prop :=
  ∀ s : State, Completes s ↔ LineReady s

/-- Every line that completes gives each named output its value and leaves every other name alone (30_encoding.md section 4; a
name given twice holds its last output, log entry 18). -/
def Obligations.OutputsReachTheHostsNames : Prop :=
  ∀ (s t : State) (w : OpWord) (args : List Operand) (outs : List (Option Nat)) (i : Instr),
    namesCanonical s.names = true → s.script[s.line]? = some (.eval w args outs) → decode w = .op i → step s = .next t →
    (∀ (k n : Nat) (v : Value), outs[k]? = some (some n) → (outputValues i.unitOf t.outputs)[k]? = some v →
      (∀ k' > k, outs[k']? ≠ some (some n)) → lookup t.names n = some v) ∧
    ∀ n : Nat, some n ∉ outs → lookup t.names n = lookup s.names n

/-- The host's other lines (30_encoding.md section 4; that each is a step, the step at the script's end, and that a branch reads a
name, are the model's, log entries 5, 6 and 24): no unit is evaluated. -/
def Obligations.HostLinesEvaluateNothing : Prop :=
  ∀ s : State,
    (s.script.length ≤ s.line → step s = .next s) ∧
    (∀ l, s.script[s.line]? = some (.label l) → step s = .next { s with line := s.line + 1 }) ∧
    (∀ n v, s.script[s.line]? = some (.assign n (.lit v)) →
      step s = .next { s with names := bindName s.names n v, line := s.line + 1 }) ∧
    (∀ n m v, s.script[s.line]? = some (.assign n (.name m)) → lookup s.names m = some v →
      step s = .next { s with names := bindName s.names n v, line := s.line + 1 }) ∧
    (∀ negated cond l, s.script[s.line]? = some (.branch negated cond l) → lookup s.names cond = some (.bit negated) →
      step s = .next { s with line := s.line + 1 })

/-- Taken control flow goes to the first line that has the label (30_encoding.md section 4; log entry 18; that a branch reads
a name, log entry 24). -/
def Obligations.ControlFlowReachesTheLabel : Prop :=
  ∀ (s : State) (l : Nat) (pre post : List Stmt), s.script = pre ++ .label l :: post → Stmt.label l ∉ pre →
    (s.script[s.line]? = some (.goto l) → step s = .next { s with line := pre.length }) ∧
    ∀ negated cond, s.script[s.line]? = some (.branch negated cond l) → lookup s.names cond = some (.bit (!negated)) →
      step s = .next { s with line := pre.length }

/-- No step changes the script, and only an operation line changes a port (30_encoding.md section 4; log entries 1 and 7). -/
def Obligations.OnlyOperationLinesTouchPorts : Prop :=
  ∀ s t : State, step s = .next t →
    t.script = s.script ∧
    ((∀ w args outs, s.script[s.line]? ≠ some (.eval w args outs)) → t.inputs = s.inputs ∧ t.outputs = s.outputs)

/-! ## The invariant -/

/-- Every step keeps the invariant: each unit's outputs are outputs that unit can have (40_adders.md sections 1, 3 and 4,
41_alu.md section 4), and the host's names are canonical. -/
def Obligations.StepKeepsInvariant : Prop :=
  ∀ s t : State, s.Inv → step s = .next t → t.Inv

/-- The invariant holds at reset (the reset values are the model's, log entries 2 to 4). -/
def Obligations.ResetHasInvariant : Prop := State.reset.Inv

/-- At reset every unit's outputs are settled: evaluating any operation changes nothing, and with no script a step changes
nothing either (the reset values are the model's, log entries 2 to 5). -/
def Obligations.ResetIsSettled : Prop :=
  (∀ i : Instr, exec i State.reset = .next State.reset) ∧ step State.reset = .next State.reset
end

