-- ==== Sys2Proof/Laws/State.lean ====
section
/-! SUPPORT. One lemma per field per update of the state, so that no proof unfolds a record update. -/

namespace Sys2Proof.Machine

variable (s : State)

@[simp] theorem State.setOutputs_inputs (o : Outputs) : (s.setOutputs o).inputs = s.inputs := rfl
@[simp] theorem State.setOutputs_outputs (o : Outputs) : (s.setOutputs o).outputs = o := rfl
@[simp] theorem State.setOutputs_names (o : Outputs) : (s.setOutputs o).names = s.names := rfl
@[simp] theorem State.setOutputs_script (o : Outputs) : (s.setOutputs o).script = s.script := rfl
@[simp] theorem State.setOutputs_line (o : Outputs) : (s.setOutputs o).line = s.line := rfl

@[simp] theorem State.setInputs_inputs (p : Inputs) : (s.setInputs p).inputs = p := rfl
@[simp] theorem State.setInputs_outputs (p : Inputs) : (s.setInputs p).outputs = s.outputs := rfl
@[simp] theorem State.setInputs_names (p : Inputs) : (s.setInputs p).names = s.names := rfl
@[simp] theorem State.setInputs_script (p : Inputs) : (s.setInputs p).script = s.script := rfl
@[simp] theorem State.setInputs_line (p : Inputs) : (s.setInputs p).line = s.line := rfl

@[simp] theorem State.setNames_inputs (e : List (Nat × Value)) : (s.setNames e).inputs = s.inputs := rfl
@[simp] theorem State.setNames_outputs (e : List (Nat × Value)) : (s.setNames e).outputs = s.outputs := rfl
@[simp] theorem State.setNames_names (e : List (Nat × Value)) : (s.setNames e).names = e := rfl
@[simp] theorem State.setNames_script (e : List (Nat × Value)) : (s.setNames e).script = s.script := rfl
@[simp] theorem State.setNames_line (e : List (Nat × Value)) : (s.setNames e).line = s.line := rfl

@[simp] theorem State.setLine_inputs (n : Nat) : (s.setLine n).inputs = s.inputs := rfl
@[simp] theorem State.setLine_outputs (n : Nat) : (s.setLine n).outputs = s.outputs := rfl
@[simp] theorem State.setLine_names (n : Nat) : (s.setLine n).names = s.names := rfl
@[simp] theorem State.setLine_script (n : Nat) : (s.setLine n).script = s.script := rfl
@[simp] theorem State.setLine_line (n : Nat) : (s.setLine n).line = n := rfl

@[simp] theorem State.nextLine_inputs : s.nextLine.inputs = s.inputs := rfl
@[simp] theorem State.nextLine_outputs : s.nextLine.outputs = s.outputs := rfl
@[simp] theorem State.nextLine_names : s.nextLine.names = s.names := rfl
@[simp] theorem State.nextLine_script : s.nextLine.script = s.script := rfl
@[simp] theorem State.nextLine_line : s.nextLine.line = s.line + 1 := rfl

@[simp] theorem Outputs.setHa_ha (o : Outputs) (r : HaOut) : (o.setHa r).ha = r := rfl
@[simp] theorem Outputs.setHa_fa (o : Outputs) (r : HaOut) : (o.setHa r).fa = o.fa := rfl
@[simp] theorem Outputs.setHa_add (o : Outputs) (r : HaOut) : (o.setHa r).add = o.add := rfl
@[simp] theorem Outputs.setHa_inc (o : Outputs) (r : HaOut) : (o.setHa r).inc = o.inc := rfl
@[simp] theorem Outputs.setHa_alu (o : Outputs) (r : HaOut) : (o.setHa r).alu = o.alu := rfl
@[simp] theorem Outputs.setFa_ha (o : Outputs) (r : FaOut) : (o.setFa r).ha = o.ha := rfl
@[simp] theorem Outputs.setFa_fa (o : Outputs) (r : FaOut) : (o.setFa r).fa = r := rfl
@[simp] theorem Outputs.setFa_add (o : Outputs) (r : FaOut) : (o.setFa r).add = o.add := rfl
@[simp] theorem Outputs.setFa_inc (o : Outputs) (r : FaOut) : (o.setFa r).inc = o.inc := rfl
@[simp] theorem Outputs.setFa_alu (o : Outputs) (r : FaOut) : (o.setFa r).alu = o.alu := rfl
@[simp] theorem Outputs.setAdd_ha (o : Outputs) (r : AddOut) : (o.setAdd r).ha = o.ha := rfl
@[simp] theorem Outputs.setAdd_fa (o : Outputs) (r : AddOut) : (o.setAdd r).fa = o.fa := rfl
@[simp] theorem Outputs.setAdd_add (o : Outputs) (r : AddOut) : (o.setAdd r).add = r := rfl
@[simp] theorem Outputs.setAdd_inc (o : Outputs) (r : AddOut) : (o.setAdd r).inc = o.inc := rfl
@[simp] theorem Outputs.setAdd_alu (o : Outputs) (r : AddOut) : (o.setAdd r).alu = o.alu := rfl
@[simp] theorem Outputs.setInc_ha (o : Outputs) (r : IncOut) : (o.setInc r).ha = o.ha := rfl
@[simp] theorem Outputs.setInc_fa (o : Outputs) (r : IncOut) : (o.setInc r).fa = o.fa := rfl
@[simp] theorem Outputs.setInc_add (o : Outputs) (r : IncOut) : (o.setInc r).add = o.add := rfl
@[simp] theorem Outputs.setInc_inc (o : Outputs) (r : IncOut) : (o.setInc r).inc = r := rfl
@[simp] theorem Outputs.setInc_alu (o : Outputs) (r : IncOut) : (o.setInc r).alu = o.alu := rfl
@[simp] theorem Outputs.setAlu_ha (o : Outputs) (r : AluOut) : (o.setAlu r).ha = o.ha := rfl
@[simp] theorem Outputs.setAlu_fa (o : Outputs) (r : AluOut) : (o.setAlu r).fa = o.fa := rfl
@[simp] theorem Outputs.setAlu_add (o : Outputs) (r : AluOut) : (o.setAlu r).add = o.add := rfl
@[simp] theorem Outputs.setAlu_inc (o : Outputs) (r : AluOut) : (o.setAlu r).inc = o.inc := rfl
@[simp] theorem Outputs.setAlu_alu (o : Outputs) (r : AluOut) : (o.setAlu r).alu = r := rfl

@[simp] theorem Inputs.setHa_ha (p : Inputs) (r : HaIn) : (p.setHa r).ha = r := rfl
@[simp] theorem Inputs.setHa_fa (p : Inputs) (r : HaIn) : (p.setHa r).fa = p.fa := rfl
@[simp] theorem Inputs.setHa_add (p : Inputs) (r : HaIn) : (p.setHa r).add = p.add := rfl
@[simp] theorem Inputs.setHa_inc (p : Inputs) (r : HaIn) : (p.setHa r).inc = p.inc := rfl
@[simp] theorem Inputs.setHa_alu (p : Inputs) (r : HaIn) : (p.setHa r).alu = p.alu := rfl
@[simp] theorem Inputs.setFa_ha (p : Inputs) (r : FaIn) : (p.setFa r).ha = p.ha := rfl
@[simp] theorem Inputs.setFa_fa (p : Inputs) (r : FaIn) : (p.setFa r).fa = r := rfl
@[simp] theorem Inputs.setFa_add (p : Inputs) (r : FaIn) : (p.setFa r).add = p.add := rfl
@[simp] theorem Inputs.setFa_inc (p : Inputs) (r : FaIn) : (p.setFa r).inc = p.inc := rfl
@[simp] theorem Inputs.setFa_alu (p : Inputs) (r : FaIn) : (p.setFa r).alu = p.alu := rfl
@[simp] theorem Inputs.setAdd_ha (p : Inputs) (r : AddIn) : (p.setAdd r).ha = p.ha := rfl
@[simp] theorem Inputs.setAdd_fa (p : Inputs) (r : AddIn) : (p.setAdd r).fa = p.fa := rfl
@[simp] theorem Inputs.setAdd_add (p : Inputs) (r : AddIn) : (p.setAdd r).add = r := rfl
@[simp] theorem Inputs.setAdd_inc (p : Inputs) (r : AddIn) : (p.setAdd r).inc = p.inc := rfl
@[simp] theorem Inputs.setAdd_alu (p : Inputs) (r : AddIn) : (p.setAdd r).alu = p.alu := rfl
@[simp] theorem Inputs.setInc_ha (p : Inputs) (r : IncIn) : (p.setInc r).ha = p.ha := rfl
@[simp] theorem Inputs.setInc_fa (p : Inputs) (r : IncIn) : (p.setInc r).fa = p.fa := rfl
@[simp] theorem Inputs.setInc_add (p : Inputs) (r : IncIn) : (p.setInc r).add = p.add := rfl
@[simp] theorem Inputs.setInc_inc (p : Inputs) (r : IncIn) : (p.setInc r).inc = r := rfl
@[simp] theorem Inputs.setInc_alu (p : Inputs) (r : IncIn) : (p.setInc r).alu = p.alu := rfl
@[simp] theorem Inputs.setAlu_ha (p : Inputs) (r : AluIn) : (p.setAlu r).ha = p.ha := rfl
@[simp] theorem Inputs.setAlu_fa (p : Inputs) (r : AluIn) : (p.setAlu r).fa = p.fa := rfl
@[simp] theorem Inputs.setAlu_add (p : Inputs) (r : AluIn) : (p.setAlu r).add = p.add := rfl
@[simp] theorem Inputs.setAlu_inc (p : Inputs) (r : AluIn) : (p.setAlu r).inc = p.inc := rfl
@[simp] theorem Inputs.setAlu_alu (p : Inputs) (r : AluIn) : (p.setAlu r).alu = r := rfl

end Sys2Proof.Machine
end

