-- ==== Sys2Proof/Laws/Ops.lean ====
section
/-! SUPPORT. What the shared operations do: gates, vector access, number readings, the host's names, sequencing. -/

namespace Sys2Proof.Machine

/-! ## Gates -/

@[simp] theorem gateNot_eq (a : Bit) : gateNot a = !a := by cases a <;> rfl
@[simp] theorem gateAnd_eq (a b : Bit) : gateAnd a b = (a && b) := by cases a <;> cases b <;> rfl
@[simp] theorem gateOr_eq (a b : Bit) : gateOr a b = (a || b) := by cases a <;> cases b <;> rfl
@[simp] theorem gateXor_eq (a b : Bit) : gateXor a b = (a ^^ b) := by cases a <;> cases b <;> rfl

/-! ## Vectors -/

@[simp] theorem bitAt_nil (i : Nat) : bitAt [] i = false := rfl
@[simp] theorem bitAt_cons_zero (b : Bit) (v : Bits) : bitAt (b :: v) 0 = b := rfl
@[simp] theorem bitAt_cons_succ (b : Bit) (v : Bits) (i : Nat) : bitAt (b :: v) (i + 1) = bitAt v i := rfl

theorem bitAt_of_length_le {v : Bits} {i : Nat} (h : v.length ≤ i) : bitAt v i = false :=
  List.getD_eq_default _ _ h

theorem bitAt_eq_getElem {v : Bits} {i : Nat} (h : i < v.length) : bitAt v i = v[i] :=
  List.getD_eq_getElem _ _ h

theorem bitAt_append_left {v w : Bits} {i : Nat} (h : i < v.length) : bitAt (v ++ w) i = bitAt v i :=
  List.getD_append _ _ _ _ h

theorem bitAt_append_length (v : Bits) (b : Bit) : bitAt (v ++ [b]) v.length = b := by
  simp [bitAt]

/-- A vector built position by position, read at a position. -/
theorem bitAt_map_range (g : Nat → Bit) (n i : Nat) :
    bitAt ((List.range n).map g) i = if i < n then g i else false := by
  by_cases h : i < n <;> simp [bitAt, List.getD, h]

/-- Two vectors of one width with the same bits are equal (10_state.md R31). -/
theorem bits_ext {v w : Bits} (hlen : v.length = w.length) (h : ∀ i < v.length, bitAt v i = bitAt w i) : v = w := by
  apply List.ext_getElem hlen
  intro i h1 h2
  simpa [bitAt_eq_getElem h1, bitAt_eq_getElem h2] using h i h1

@[simp] theorem zext_length (n : Nat) (v : Bits) : (zext n v).length = n := by simp [zext]

theorem bitAt_zext (n : Nat) (v : Bits) (i : Nat) : bitAt (zext n v) i = if i < n then bitAt v i else false :=
  bitAt_map_range _ _ _

theorem zext_self (v : Bits) : zext v.length v = v :=
  bits_ext (zext_length _ _) fun i hi => by
    rw [zext_length] at hi
    simp [bitAt_zext, hi]

/-- Reading is the same below the new width when nothing is cut off. -/
theorem bitAt_zext_of_le {n : Nat} {v : Bits} (h : v.length ≤ n) (i : Nat) : bitAt (zext n v) i = bitAt v i := by
  rw [bitAt_zext]
  split
  · rfl
  · exact (bitAt_of_length_le (by omega)).symm

/-! ## Number readings -/

@[simp] theorem uint_nil : uint [] = 0 := rfl

theorem uint_append (v w : Bits) : uint (v ++ w) = uint v + 2 ^ v.length * uint w := by
  induction v with
  | nil => simp
  | cons b v ih => simp only [List.cons_append, uint, ih, List.length_cons, pow_succ]; ring

theorem uint_snoc (v : Bits) (b : Bit) : uint (v ++ [b]) = uint v + 2 ^ v.length * b.toNat := by
  simp [uint_append, uint]

theorem uint_lt (v : Bits) : uint v < 2 ^ v.length := by
  induction v with
  | nil => simp
  | cons b v ih =>
    have : b.toNat ≤ 1 := by cases b <;> simp
    simp only [uint, List.length_cons, pow_succ]
    omega

/-- Width and value determine a vector. -/
theorem uint_inj {v w : Bits} (hlen : v.length = w.length) (h : uint v = uint w) : v = w := by
  induction v generalizing w with
  | nil => exact (List.length_eq_zero_iff.mp (by simpa using hlen.symm)).symm
  | cons b v ih =>
    cases w with
    | nil => simp at hlen
    | cons d w =>
      simp only [uint] at h
      have hb : b = d := by cases b <;> cases d <;> simp_all <;> omega
      subst hb
      rw [ih (by simpa using hlen) (by omega)]

theorem zext_succ (n : Nat) (v : Bits) : zext (n + 1) v = zext n v ++ [bitAt v n] := by
  simp [zext, List.range_succ]

theorem uint_zext_succ (n : Nat) (v : Bits) : uint (zext (n + 1) v) = uint (zext n v) + 2 ^ n * (bitAt v n).toNat := by
  simp [zext_succ, uint_snoc]

/-- Padding with zeros keeps the value. -/
theorem uint_zext_of_le {v : Bits} {n : Nat} (h : v.length ≤ n) : uint (zext n v) = uint v := by
  induction n, h using Nat.le_induction with
  | base => rw [zext_self]
  | succ n hn ih => rw [uint_zext_succ, ih, bitAt_of_length_le hn]; simp

@[simp] theorem uint_zeros (n : Nat) : uint (zeros n) = 0 := by
  induction n with
  | zero => rfl
  | succ n ih => simpa [zeros, List.replicate_succ, uint] using ih

theorem uint_ones (n : Nat) : uint (ones n) + 1 = 2 ^ n := by
  induction n with
  | zero => rfl
  | succ n ih => simp only [ones, List.replicate_succ, uint, Bool.toNat_true, pow_succ] at *; omega

/-- Inverting every bit complements the value. -/
theorem uint_not (v : Bits) : uint (v.map fun b => !b) + uint v + 1 = 2 ^ v.length := by
  induction v with
  | nil => rfl
  | cons b v ih => cases b <;> simp only [List.map_cons, uint, List.length_cons, pow_succ] <;> simp <;> omega

/-! ## The host's names -/

theorem lookup_bindName (e : List (Nat × Value)) (n m : Nat) (v : Value) (h : namesCanonical e = true) :
    lookup (bindName e n v) m = if n = m then some v else lookup e m := by
  induction e with
  | nil => rfl
  | cons p e ih =>
    obtain ⟨k, x⟩ := p
    have he : namesCanonical e = true := by
      cases e with
      | nil => rfl
      | cons q e => simp only [namesCanonical, Bool.and_eq_true] at h; exact h.2
    simp only [bindName]
    split
    · simp [lookup]
    · split
      · subst_vars
        simp only [lookup]
        split <;> simp_all
      · simp only [lookup, ih he]
        split <;> split <;> simp_all

/-- A binding keeps the canonical form of the names. -/
theorem namesCanonical_bindName (e : List (Nat × Value)) (n : Nat) (v : Value) (h : namesCanonical e = true) :
    namesCanonical (bindName e n v) = true := by
  induction e with
  | nil => rfl
  | cons p e ih =>
    obtain ⟨k, x⟩ := p
    simp only [bindName]
    split
    · simp [namesCanonical, *]
    · split
      · subst_vars
        cases e <;> simp_all [namesCanonical]
      · cases e with
        | nil => simp [bindName, namesCanonical]; omega
        | cons q e =>
          obtain ⟨m, y⟩ := q
          simp only [namesCanonical, Bool.and_eq_true, decide_eq_true_eq] at h
          have := ih h.2
          simp only [bindName] at this ⊢
          split
          · simp_all [namesCanonical]; omega
          · split
            · subst_vars; simp_all [namesCanonical]
            · simp_all [namesCanonical]

/-! ## Sequencing -/

theorem orRefuse_eq_next {α : Type} {r : Except Refusal α} {k : α → Host.Outcome State Fault Refusal} {t : State}
    (h : orRefuse r k = .next t) : ∃ a, r = .ok a ∧ k a = .next t := by
  cases r with
  | ok a => exact ⟨a, rfl, h⟩
  | error e => simp [orRefuse] at h

theorem andThen_eq_next {o : Host.Outcome State Fault Refusal} {k : State → Host.Outcome State Fault Refusal} {t : State}
    (h : andThen o k = .next t) : ∃ s, o = .next s ∧ k s = .next t := by
  cases o with
  | next s => exact ⟨s, rfl, h⟩
  | fault r => simp [andThen] at h
  | refused r => simp [andThen] at h

@[simp] theorem orRefuse_ok {α : Type} (a : α) (k : α → Host.Outcome State Fault Refusal) : orRefuse (.ok a) k = k a := rfl
@[simp] theorem orRefuse_error {α : Type} (e : Refusal) (k : α → Host.Outcome State Fault Refusal) :
    orRefuse (.error e) k = .refused e := rfl
@[simp] theorem andThen_next (s : State) (k : State → Host.Outcome State Fault Refusal) : andThen (.next s) k = k s := rfl

end Sys2Proof.Machine
end

