-- ==== Sys2Proof/Laws/Adders.lean ====
section
/-! SUPPORT. What the adder chain's shared operations do (40_adders.md). -/

namespace Sys2Proof.Machine

/-- One full-adder stage counts its three bits. -/
theorem fullAdder_count (a b c : Bit) :
    2 * (fullAdder a b c).carryOut.toNat + (fullAdder a b c).sum.toNat = a.toNat + b.toNat + c.toNat := by
  cases a <;> cases b <;> cases c <;> rfl

theorem fullAdder_sum (a b c : Bit) : (fullAdder a b c).sum = ((a ^^ b) ^^ c) := by
  cases a <;> cases b <;> cases c <;> rfl

theorem fullAdder_carryOut (a b c : Bit) : (fullAdder a b c).carryOut = ((a && b) || ((a ^^ b) && c)) := by
  cases a <;> cases b <;> cases c <;> rfl

theorem fullAdder_symm (a b c : Bit) : fullAdder a b c = fullAdder b a c := by
  cases a <;> cases b <;> cases c <;> rfl

/-! ## The loop -/

theorem ripple_succ_sum (a b : Bits) (i : Nat) :
    (ripple a b (i + 1)).sum = (ripple a b i).sum ++ [(fullAdder (bitAt a i) (bitAt b i) (ripple a b i).carry).sum] := rfl

theorem ripple_succ_carry (a b : Bits) (i : Nat) :
    (ripple a b (i + 1)).carry = (fullAdder (bitAt a i) (bitAt b i) (ripple a b i).carry).carryOut := rfl

@[simp] theorem ripple_sum_length (a b : Bits) (n : Nat) : (ripple a b n).sum.length = n := by
  induction n with
  | zero => rfl
  | succ n ih => simp [ripple_succ_sum, ih]

/-- A sum bit, once formed, is never changed by a later position. -/
theorem bitAt_ripple_sum {a b : Bits} {n i : Nat} (h : i < n) :
    bitAt (ripple a b n).sum i = (fullAdder (bitAt a i) (bitAt b i) (ripple a b i).carry).sum := by
  induction n, h using Nat.le_induction with
  | base =>
    have := bitAt_append_length (ripple a b i).sum (fullAdder (bitAt a i) (bitAt b i) (ripple a b i).carry).sum
    rwa [ripple_sum_length] at this
  | succ n hn ih => rw [ripple_succ_sum, bitAt_append_left (by simpa using hn), ih]

/-- The loop reads only the positions below its count. -/
theorem ripple_congr {a b a' b' : Bits} {n : Nat}
    (h : ∀ i < n, bitAt a i = bitAt a' i ∧ bitAt b i = bitAt b' i) : ripple a b n = ripple a' b' n := by
  induction n with
  | zero => rfl
  | succ n ih =>
    obtain ⟨ha, hb⟩ := h n (by omega)
    simp only [ripple, ih fun i hi => h i (by omega), ha, hb]

theorem ripple_symm (a b : Bits) (n : Nat) : ripple a b n = ripple b a n := by
  induction n with
  | zero => rfl
  | succ n ih => simp only [ripple, ih, fullAdder_symm (bitAt a n)]

/-- The value of the loop after `n` positions. -/
theorem ripple_value (a b : Bits) (n : Nat) :
    uint (ripple a b n).sum + 2 ^ n * (ripple a b n).carry.toNat = uint (zext n a) + uint (zext n b) := by
  induction n with
  | zero => rfl
  | succ n ih =>
    have h := fullAdder_count (bitAt a n) (bitAt b n) (ripple a b n).carry
    rw [ripple_succ_sum, ripple_succ_carry, uint_snoc, ripple_sum_length, uint_zext_succ, uint_zext_succ]
    generalize fullAdder (bitAt a n) (bitAt b n) (ripple a b n).carry = st at h ⊢
    have h2 : 2 ^ n * (2 * st.carryOut.toNat + st.sum.toNat) =
        2 ^ n * ((bitAt a n).toNat + (bitAt b n).toNat + (ripple a b n).carry.toNat) := by rw [h]
    rw [pow_succ]
    linarith [h2, ih]

@[simp] theorem nBitAdder_sum_length (a b : Bits) : (nBitAdder a b).sum.length = max a.length b.length :=
  ripple_sum_length _ _ _

/-- The value of the adder's outputs. -/
theorem nBitAdder_value (a b : Bits) :
    uint (nBitAdder a b).sum + 2 ^ max a.length b.length * (nBitAdder a b).carry.toNat = uint a + uint b := by
  have h := ripple_value a b (max a.length b.length)
  rwa [uint_zext_of_le (le_max_left _ _), uint_zext_of_le (le_max_right _ _)] at h

theorem nBitAdder_uint_sum (a b : Bits) : uint (nBitAdder a b).sum = (uint a + uint b) % 2 ^ max a.length b.length := by
  have h := nBitAdder_value a b
  have hlt := uint_lt (nBitAdder a b).sum
  rw [nBitAdder_sum_length] at hlt
  rw [← h, Nat.add_mul_mod_self_left, Nat.mod_eq_of_lt hlt]

theorem incrementer_result (a : Bits) : (incrementer a).result = (nBitAdder a [true]).sum := rfl
theorem incrementer_overflow (a : Bits) : (incrementer a).overflow = (nBitAdder a [true]).carry := rfl

end Sys2Proof.Machine
end

