-- ==== Sys2Proof/Laws/Alu.lean ====
section
/-! SUPPORT. What the ALU's stages do (41_alu.md). -/

namespace Sys2Proof.Machine

/-! ## Conditioner -/

@[simp] theorem condition_length (v : Bits) (z neg : Bit) (n : Nat) : (condition v z neg n).length = n := by
  simp [condition]

theorem bitAt_condition {n i : Nat} (v : Bits) (z neg : Bit) (h : i < n) :
    bitAt (condition v z neg n) i = (neg ^^ (!z && bitAt v i)) := by
  rw [condition, bitAt_map_range, if_pos h]
  cases z <;> cases neg <;> simp

/-- The conditioner sees only the bits of its operand, so a padded operand conditions alike. -/
theorem condition_congr {v w : Bits} (z neg : Bit) (n : Nat) (h : ∀ i < n, bitAt v i = bitAt w i) :
    condition v z neg n = condition w z neg n :=
  bits_ext (by simp) fun i hi => by
    rw [condition_length] at hi
    rw [bitAt_condition v z neg hi, bitAt_condition w z neg hi, h i hi]

theorem condition_pass (v : Bits) (n : Nat) : condition v false false n = zext n v :=
  bits_ext (by simp) fun i hi => by
    rw [condition_length] at hi
    simp [bitAt_condition v false false hi, bitAt_zext, hi]

theorem condition_invert (v : Bits) (n : Nat) : condition v false true n = (zext n v).map (fun b => !b) :=
  bits_ext (by simp) fun i hi => by
    rw [condition_length] at hi
    rw [bitAt_condition v false true hi, zext, List.map_map, bitAt_map_range, if_pos hi]
    simp

theorem condition_zero (v : Bits) (n : Nat) : condition v true false n = zeros n :=
  bits_ext (by simp [zeros]) fun i hi => by
    rw [condition_length] at hi
    rw [bitAt_condition v true false hi]
    simp [bitAt, zeros, hi]

theorem condition_one (v : Bits) (n : Nat) : condition v true true n = ones n :=
  bits_ext (by simp [ones]) fun i hi => by
    rw [condition_length] at hi
    rw [bitAt_condition v true true hi]
    simp [bitAt, ones, hi]

/-! ## Function unit and negator -/

@[simp] theorem functionUnit_length (xp yp : Bits) (f : Bit) (n : Nat) : (functionUnit xp yp f n).length = n := by
  cases f <;> simp [functionUnit]

/-- Addition: at equal widths the sum already has the working width, so nothing is padded or cut (41_alu.md R113). -/
theorem functionUnit_add {xp yp : Bits} {n : Nat} (hx : xp.length = n) (hy : yp.length = n) :
    functionUnit xp yp true n = (nBitAdder xp yp).sum := by
  have h : (nBitAdder xp yp).sum.length = n := by simp [hx, hy]
  simp only [functionUnit, if_true]
  conv_rhs => rw [← zext_self (nBitAdder xp yp).sum, h]

theorem bitAt_functionUnit_and {n i : Nat} (xp yp : Bits) (h : i < n) :
    bitAt (functionUnit xp yp false n) i = (bitAt xp i && bitAt yp i) := by
  simp only [functionUnit, Bool.false_eq_true, if_false]
  rw [bitAt_map_range, if_pos h, gateAnd_eq]

@[simp] theorem negateOut_length (v : Bits) (no : Bit) : (negateOut v no).length = v.length := by
  cases no <;> simp [negateOut]

@[simp] theorem negateOut_false (v : Bits) : negateOut v false = v := rfl

theorem negateOut_true (v : Bits) : negateOut v true = v.map (fun b => !b) := by
  simp [negateOut]

theorem bitAt_negateOut {v : Bits} {i : Nat} (no : Bit) (h : i < v.length) :
    bitAt (negateOut v no) i = (no ^^ bitAt v i) := by
  cases no
  · simp
  · rw [negateOut_true, bitAt_eq_getElem (by simpa using h), List.getElem_map, ← bitAt_eq_getElem h, Bool.true_xor]

/-! ## Flags -/

@[simp] theorem withFlags_out (v : Bits) : (withFlags v).out = v := rfl

theorem zeroFlag_eq_true {v : Bits} : zeroFlag v = true ↔ ∀ b ∈ v, b = false := by
  simp [zeroFlag]

theorem negFlag_eq_true {v : Bits} : negFlag v = true ↔ v.getLast? = some true := by
  rcases List.eq_nil_or_concat v with rfl | ⟨w, b, rfl⟩
  · simp [negFlag]
  · simp [negFlag, bitAt]

/-! ## The whole -/

@[simp] theorem alu_out_length (x y : Bits) (c : Ctrl) : (alu x y c).out.length = max x.length y.length := by
  simp [alu]

theorem alu_flags (x y : Bits) (c : Ctrl) : alu x y c = withFlags (alu x y c).out := rfl

end Sys2Proof.Machine
end

