-- ==== Sys2Proof/Laws/PerInstr.lean ====
section
/-! SUPPORT. Statements about every operation as syntax, one lemma per constructor. -/

namespace Sys2Proof.Laws.NamesAnOperation

/-- The OPWORD of an operation is not reserved (30_encoding.md R72). -/
def Statement (i : Instr) : Prop := ∃ j, decode (encode i) = .op j

theorem ha : Statement .ha := ⟨.ha, by decide⟩
theorem fa : Statement .fa := ⟨.fa, by decide⟩
theorem add : Statement .add := ⟨.add, by decide⟩
theorem inc : Statement .inc := ⟨.inc, by decide⟩
theorem alu (c : Ctrl) : Statement (.alu c) := by
  obtain ⟨zx, nx, zy, ny, f, no⟩ := c
  refine ⟨.alu ⟨zx, nx, zy, ny, f, no⟩, ?_⟩
  revert zx nx zy ny f no
  decide
theorem aluZero : Statement .aluZero := ⟨.alu ctrlZero, by decide⟩
theorem aluOne : Statement .aluOne := ⟨.alu ctrlOne, by decide⟩
theorem aluNeg1 : Statement .aluNeg1 := ⟨.alu ctrlNeg1, by decide⟩
theorem aluX : Statement .aluX := ⟨.alu ctrlX, by decide⟩
theorem aluY : Statement .aluY := ⟨.alu ctrlY, by decide⟩
theorem aluNotx : Statement .aluNotx := ⟨.alu ctrlNotx, by decide⟩
theorem aluNoty : Statement .aluNoty := ⟨.alu ctrlNoty, by decide⟩
theorem aluNegx : Statement .aluNegx := ⟨.alu ctrlNegx, by decide⟩
theorem aluNegy : Statement .aluNegy := ⟨.alu ctrlNegy, by decide⟩
theorem aluIncx : Statement .aluIncx := ⟨.alu ctrlIncx, by decide⟩
theorem aluIncy : Statement .aluIncy := ⟨.alu ctrlIncy, by decide⟩
theorem aluDecx : Statement .aluDecx := ⟨.alu ctrlDecx, by decide⟩
theorem aluDecy : Statement .aluDecy := ⟨.alu ctrlDecy, by decide⟩
theorem aluAdd : Statement .aluAdd := ⟨.alu ctrlAdd, by decide⟩
theorem aluSubxy : Statement .aluSubxy := ⟨.alu ctrlSubxy, by decide⟩
theorem aluSubyx : Statement .aluSubyx := ⟨.alu ctrlSubyx, by decide⟩
theorem aluAnd : Statement .aluAnd := ⟨.alu ctrlAnd, by decide⟩
theorem aluOr : Statement .aluOr := ⟨.alu ctrlOr, by decide⟩

end Sys2Proof.Laws.NamesAnOperation
end

