-- ==== Sys2Proof/Laws/Script.lean ====
section
/-! SUPPORT. What an evaluation and a line of the host's script can do. -/

namespace Sys2Proof.Machine

/-- The result of a unit on the levels at its ports, whichever operation names it: what every evaluation comes to. -/
def evaluated (i : Instr) (s : State) : Outputs :=
  match i.expand with
  | .ha => s.outputs.setHa (halfAdder s.inputs.ha.a s.inputs.ha.b)
  | .fa => s.outputs.setFa (fullAdder s.inputs.fa.a s.inputs.fa.b s.inputs.fa.carryIn)
  | .add => s.outputs.setAdd (nBitAdder s.inputs.add.a s.inputs.add.b)
  | .inc => s.outputs.setInc (incrementer s.inputs.inc.a)
  | .alu c => s.outputs.setAlu (alu s.inputs.alu.x s.inputs.alu.y c)
  | _ => s.outputs

/-- Every evaluation goes on, and changes only its unit's outputs. -/
theorem exec_eq (i : Instr) (s : State) : exec i s = .next (s.setOutputs (evaluated i s)) := by
  cases i <;> rfl

/-- An operation of the ALU unit is `alu` under some control word. -/
theorem expand_of_unitOf_alu {i : Instr} (h : i.unitOf = .alu) : ∃ c, i.expand = .alu c := by
  cases i <;> first | exact ⟨_, rfl⟩ | exact absurd h (by decide)

/-- What an ALU operation evaluates to. -/
theorem exec_of_expand {i : Instr} {c : Ctrl} (h : i.expand = .alu c) (s : State) :
    exec i s = .next (s.setOutputs (s.outputs.setAlu (alu s.inputs.alu.x s.inputs.alu.y c))) := by
  rw [exec_eq, evaluated, h]

/-- Every evaluation replaces one unit's outputs by that unit's function of its inputs. -/
theorem exec_cases {i : Instr} {s t : State} (h : exec i s = .next t) :
    (i.unitOf = .ha ∧ t = s.setOutputs (s.outputs.setHa (halfAdder s.inputs.ha.a s.inputs.ha.b))) ∨
    (i.unitOf = .fa ∧ t = s.setOutputs (s.outputs.setFa (fullAdder s.inputs.fa.a s.inputs.fa.b s.inputs.fa.carryIn))) ∨
    (i.unitOf = .add ∧ t = s.setOutputs (s.outputs.setAdd (nBitAdder s.inputs.add.a s.inputs.add.b))) ∨
    (i.unitOf = .inc ∧ t = s.setOutputs (s.outputs.setInc (incrementer s.inputs.inc.a))) ∨
    (i.unitOf = .alu ∧ ∃ c, i.expand = .alu c ∧
      t = s.setOutputs (s.outputs.setAlu (alu s.inputs.alu.x s.inputs.alu.y c))) := by
  rw [exec_eq] at h
  injection h with h
  subst h
  cases i <;> simp [evaluated, Instr.expand, Instr.unitOf]

/-! ## Operands -/

theorem drive_eq_ok {u : UnitName} {vs : List Value} {p q : Inputs} (h : drive u vs p = .ok q) :
    inputValues u q = vs := by
  unfold drive at h
  split at h
  · split at h <;> cases h <;> rfl
  · cases h

/-- The levels already at a unit's ports, driven again, change nothing. -/
theorem drive_inputValues (u : UnitName) (p : Inputs) : drive u (inputValues u p) p = .ok p := by
  cases u <;> rfl

theorem resolveAll_lit (e : List (Nat × Value)) (vs : List Value) : resolveAll e (vs.map Operand.lit) = .ok vs := by
  induction vs with
  | nil => rfl
  | cons v vs ih => simp [resolveAll, resolve, ih]

theorem outputValues_length (u : UnitName) (o : Outputs) : (outputValues u o).length = outputCount u := by
  cases u <;> rfl

theorem bindOutputs_none (vs : List Value) (e : List (Nat × Value)) :
    bindOutputs (List.replicate vs.length none) vs e = .ok e := by
  induction vs with
  | nil => rfl
  | cons v vs ih => simpa [List.replicate_succ, bindOutputs] using ih

/-- Binding outputs keeps the host's names canonical. -/
theorem bindOutputs_canonical {ns : List (Option Nat)} {vs : List Value} {e e' : List (Nat × Value)}
    (h : bindOutputs ns vs e = .ok e') (he : namesCanonical e = true) : namesCanonical e' = true := by
  induction ns, vs, e using bindOutputs.induct with
  | case1 e => simp only [bindOutputs, Except.ok.injEq] at h; exact h ▸ he
  | case2 e ns v vs ih => exact ih (by simpa only [bindOutputs] using h) he
  | case3 e n ns v vs ih => exact ih (by simpa only [bindOutputs] using h) (namesCanonical_bindName _ _ _ he)
  | case4 ns vs e => simp_all [bindOutputs]

theorem bindOutputs_isOk (ns : List (Option Nat)) (vs : List Value) (e : List (Nat × Value)) :
    (∃ e', bindOutputs ns vs e = .ok e') ↔ ns.length = vs.length := by
  induction ns generalizing vs e with
  | nil => cases vs <;> simp [bindOutputs]
  | cons n ns ih => cases vs <;> cases n <;> simp [bindOutputs, ih]

/-! ## Lines -/

/-- An operation line, when it completes: the word decodes, its operands reach the unit's ports, the unit is evaluated, its
outputs reach the host's names, the host goes to its next line. -/
theorem runEval_eq_next {w : OpWord} {args : List Operand} {outs : List (Option Nat)} {s t : State}
    (h : runEval w args outs s = .next t) :
    ∃ i vs p u e, decode w = .op i ∧ resolveAll s.names args = .ok vs ∧ drive i.unitOf vs s.inputs = .ok p ∧
      exec i (s.setInputs p) = .next u ∧ bindOutputs outs (outputValues i.unitOf u.outputs) u.names = .ok e ∧
      t = (u.setNames e).nextLine := by
  unfold runEval at h
  split at h
  · simp at h
  · next i hi =>
    obtain ⟨vs, hvs, h⟩ := orRefuse_eq_next h
    obtain ⟨p, hp, h⟩ := orRefuse_eq_next h
    obtain ⟨u, hu, h⟩ := andThen_eq_next h
    obtain ⟨e, he, h⟩ := orRefuse_eq_next h
    injection h with h
    exact ⟨i, vs, p, u, e, hi, hvs, hp, hu, he, h.symm⟩

theorem runGoto_eq_next {l : Nat} {s t : State} (h : runGoto l s = .next t) :
    ∃ n, findLabel l s.script 0 = some n ∧ t = s.setLine n := by
  unfold runGoto at h
  split at h
  · next n hn => injection h with h; exact ⟨n, hn, h.symm⟩
  · simp at h

theorem runBranch_eq_next {negated : Bool} {cond l : Nat} {s t : State} (h : runBranch negated cond l s = .next t) :
    ∃ n, t = s.setLine n := by
  unfold runBranch at h
  split at h
  · split at h
    · obtain ⟨n, -, rfl⟩ := runGoto_eq_next h; exact ⟨n, rfl⟩
    · injection h with h; exact ⟨_, h.symm⟩
  · simp at h
  · simp at h

theorem runAssign_eq_next {n : Nat} {v : Operand} {s t : State} (h : runAssign n v s = .next t) :
    ∃ x, resolve s.names v = .ok x ∧ t = (s.setNames (bindName s.names n x)).nextLine := by
  obtain ⟨x, hx, h⟩ := orRefuse_eq_next h
  injection h with h
  exact ⟨x, hx, h.symm⟩

/-- Everything a step that goes on can do. -/
theorem step_cases {s t : State} (h : step s = .next t) :
    (s.script[s.line]? = none ∧ t = s) ∨
    (∃ n, t = s.setLine n) ∨
    (∃ n x, t = (s.setNames (bindName s.names n x)).nextLine) ∨
    (∃ w args outs i vs p u e, s.script[s.line]? = some (.eval w args outs) ∧ decode w = .op i ∧
      resolveAll s.names args = .ok vs ∧ drive i.unitOf vs s.inputs = .ok p ∧ exec i (s.setInputs p) = .next u ∧
      bindOutputs outs (outputValues i.unitOf u.outputs) u.names = .ok e ∧ t = (u.setNames e).nextLine) := by
  unfold step runLine at h
  split at h
  · next hs => injection h with h; exact .inl ⟨hs, h.symm⟩
  · next st hs =>
    cases st with
    | eval w args outs =>
      obtain ⟨i, vs, p, u, e, h1, h2, h3, h4, h5, h6⟩ := runEval_eq_next h
      exact .inr (.inr (.inr ⟨w, args, outs, i, vs, p, u, e, hs, h1, h2, h3, h4, h5, h6⟩))
    | assign n v =>
      obtain ⟨x, -, rfl⟩ := runAssign_eq_next h
      exact .inr (.inr (.inl ⟨n, x, rfl⟩))
    | branch negated cond l => exact .inr (.inl (runBranch_eq_next h))
    | goto l =>
      obtain ⟨n, -, rfl⟩ := runGoto_eq_next h
      exact .inr (.inl ⟨n, rfl⟩)
    | label l =>
      simp only [runStmt] at h
      injection h with h
      exact .inr (.inl ⟨_, h.symm⟩)

end Sys2Proof.Machine
end

