-- ==== Sys2Proof/Tests/Slice0.lean ====
section
/-! SUPPORT. Tests of single operations and single steps, and for each statement with hypotheses a state that meets them.

Expected results are the spec's: 95_test_vectors.md (table or row named at each test), 30_encoding.md R71 and R76 for words. -/

namespace Sys2Proof.Tests

open Sys2Proof.Machine

/-- The state a step or an evaluation goes on to. -/
def goesTo : Host.Outcome State Fault Refusal → Option State
  | .next s => some s
  | .fault _ => none
  | .refused _ => none

/-- Why a step is refused. -/
def refusal : Host.Outcome State Fault Refusal → Option Refusal
  | .next _ => none
  | .fault _ => none
  | .refused r => some r

/-- The width-`n` vector of a number: bit `i` is the number's bit `i`. -/
def vec (n k : Nat) : Bits := (List.range n).map k.testBit

/-- The reset state with the ALU's operands driven. -/
def withAlu (x y : Bits) : State := { State.reset with inputs := { Inputs.reset with alu := { x := x, y := y } } }

/-- The reset state with the adder's operands driven. -/
def withAdd (a b : Bits) : State := { State.reset with inputs := { Inputs.reset with add := { a := a, b := b } } }

/-- The reset state with the incrementer's operand driven. -/
def withInc (a : Bits) : State := { State.reset with inputs := { Inputs.reset with inc := { a := a } } }

/-- The reset state with a script and some names. -/
def withScript (p : List Stmt) (e : List (Nat × Value)) : State := { State.reset with script := p, names := e }

/-- The ALU's outputs after an operation. -/
def aluAfter (i : Instr) (x y : Bits) : Option AluOut := (goesTo (exec i (withAlu x y))).map (·.outputs.alu)

/-- The adder's outputs after `add`. -/
def addAfter (a b : Bits) : Option AddOut := (goesTo (exec .add (withAdd a b))).map (·.outputs.add)

/-- The incrementer's outputs after `inc`. -/
def incAfter (a : Bits) : Option IncOut := (goesTo (exec .inc (withInc a))).map (·.outputs.inc)

/-! ## Well-formedness -/

/-- The one check: a preset alias is no core form (30_encoding.md R76). -/
theorem test_wellFormed_refuses_presets :
    ([.aluZero, .aluOne, .aluNeg1, .aluX, .aluY, .aluNotx, .aluNoty, .aluNegx, .aluNegy, .aluIncx, .aluIncy, .aluDecx,
      .aluDecy, .aluAdd, .aluSubxy, .aluSubyx, .aluAnd, .aluOr] : List Instr).any Instr.wellFormed = false := by decide

/-! ## Decoding (30_encoding.md R71, R73; words written out from the tables) -/

theorem test_decode_ha : decode 0b000_000000#9 = .op .ha := by decide
theorem test_decode_fa : decode 0b001_000000#9 = .op .fa := by decide
theorem test_decode_add : decode 0b010_000000#9 = .op .add := by decide
theorem test_decode_inc : decode 0b011_000000#9 = .op .inc := by decide
theorem test_decode_alu_zx : decode 0b100_100000#9 =
    .op (.alu { zx := true, nx := false, zy := false, ny := false, f := false, no := false }) := by decide
theorem test_decode_alu_nx : decode 0b100_010000#9 =
    .op (.alu { zx := false, nx := true, zy := false, ny := false, f := false, no := false }) := by decide
theorem test_decode_alu_zy : decode 0b100_001000#9 =
    .op (.alu { zx := false, nx := false, zy := true, ny := false, f := false, no := false }) := by decide
theorem test_decode_alu_ny : decode 0b100_000100#9 =
    .op (.alu { zx := false, nx := false, zy := false, ny := true, f := false, no := false }) := by decide
theorem test_decode_alu_f : decode 0b100_000010#9 =
    .op (.alu { zx := false, nx := false, zy := false, ny := false, f := true, no := false }) := by decide
theorem test_decode_alu_no : decode 0b100_000001#9 =
    .op (.alu { zx := false, nx := false, zy := false, ny := false, f := false, no := true }) := by decide
theorem test_decode_reserved_units :
    [0b101_000000#9, 0b110_111111#9, 0b111_000001#9].map decode = List.replicate 3 (.invalid .reservedUnit) := by decide
theorem test_decode_nonzero_ctrl :
    [0b000_000001#9, 0b001_100000#9, 0b010_000010#9, 0b011_001000#9].map decode =
      List.replicate 4 (.invalid .nonzeroCtrl) := by decide
/-- The preset words of 30_encoding.md R76: the encoder gives them, and they decode to the `alu` they stand for. -/
theorem test_preset_words :
    ([.aluZero, .aluOne, .aluNeg1, .aluX, .aluY, .aluNotx, .aluNoty, .aluNegx, .aluNegy, .aluIncx, .aluIncy, .aluDecx,
      .aluDecy, .aluAdd, .aluSubxy, .aluSubyx, .aluAnd, .aluOr] : List Instr).map encode =
    [0x12A, 0x13F, 0x13A, 0x10C, 0x130, 0x10D, 0x131, 0x10F, 0x133, 0x11F, 0x137, 0x10E, 0x132, 0x102, 0x113, 0x107, 0x100,
      0x115] := by decide
theorem test_decode_subxy : decode 0x113#9 =
    .op (.alu { zx := false, nx := true, zy := false, ny := false, f := true, no := true }) := by decide
theorem test_table_word : decodeTableWord 16 0x0C0 = some .inc ∧ decodeTableWord 16 0x2C0 = none := by decide

/-! ## Adders (95_test_vectors.md sections 2.1 to 2.4) -/

theorem test_half_adder : ([(false, false), (false, true), (true, false), (true, true)] : List (Bit × Bit)).map
    (fun p => halfAdder p.1 p.2) = [⟨false, false⟩, ⟨true, false⟩, ⟨true, false⟩, ⟨false, true⟩] := by decide
theorem test_exec_ha : (goesTo (exec .ha { State.reset with inputs := { Inputs.reset with
    ha := { a := true, b := true } } })).map (·.outputs.ha) = some ⟨false, true⟩ := by decide
theorem test_full_adder_011 : fullAdder false true true = ⟨false, true⟩ ∧ fullAdder true true true = ⟨true, true⟩ := by decide
/-- The example of 40_adders.md R82. -/
theorem test_exec_fa : (goesTo (exec .fa { State.reset with inputs := { Inputs.reset with
    fa := { a := true, b := false, carryIn := true } } })).map (·.outputs.fa) = some ⟨false, true⟩ := by decide
/-- A3, A6, A13: one empty operand, unequal widths. -/
theorem test_add_widths :
    addAfter [] [false, true, true] = some ⟨[false, true, true], false⟩ ∧
    addAfter [true, false, true] [true, true] = some ⟨[false, false, false], true⟩ ∧
    addAfter [true, true, true] [true, true, true, true, true] = some ⟨[false, true, true, false, false], true⟩ := by decide
/-- A14, A16, A17: 200 + 100, 0xFFFF + 1, a short operand that is not sign-extended. -/
theorem test_add_wraps :
    addAfter (vec 8 200) (vec 8 100) = some ⟨vec 8 44, true⟩ ∧ addAfter (vec 16 0xFFFF) (vec 16 1) = some ⟨vec 16 0, true⟩ ∧
    addAfter [true] (vec 8 255) = some ⟨vec 8 0, true⟩ := by decide
/-- I1, I3, I7. -/
theorem test_inc_small : incAfter [] = some ⟨[true], false⟩ ∧ incAfter [true] = some ⟨[false], true⟩ ∧
    incAfter [true, false, true, true] = some ⟨[false, true, true, true], false⟩ := by decide
/-- I9, I10. -/
theorem test_inc_wide : incAfter (vec 16 0xFFFF) = some ⟨vec 16 0, true⟩ ∧ incAfter (vec 16 0) = some ⟨vec 16 1, false⟩ := by
  decide

/-! ## ALU (95_test_vectors.md sections 2.5 to 2.10) -/

/-- Section 2.5. -/
theorem test_conditioner :
    condition [true, false, true] false false 4 = [true, false, true, false] ∧
    condition [true, false, true] false true 4 = [false, true, false, true] ∧
    condition [true, false, true] true false 4 = [false, false, false, false] ∧
    condition [true, false, true] true true 4 = [true, true, true, true] := by decide
/-- Section 2.6. -/
theorem test_flag_processor :
    ([[], [false], [true], [false, false, false, true], [true, false, false, false], [true, true, true, true]] :
      List Bits).map (fun v => (zeroFlag v, negFlag v)) =
    [(true, false), (true, false), (false, true), (false, true), (false, false), (false, true)] := by decide
/-- Section 2.7: the `uint` column, all 64 control words in order. -/
theorem test_alu_every_control_word :
    (List.range 64).map (fun k => uint (alu [true, true, false, false] [true, false, true, false]
      (Ctrl.unpack (BitVec.ofNat 6 k))).out) =
    [1, 14, 8, 7, 2, 13, 13, 2, 0, 15, 3, 12, 3, 12, 2, 13,
      4, 11, 1, 14, 8, 7, 6, 9, 0, 15, 12, 3, 12, 3, 11, 4,
      0, 15, 5, 10, 0, 15, 10, 5, 0, 15, 0, 15, 0, 15, 15, 0,
      5, 10, 4, 11, 10, 5, 9, 6, 0, 15, 15, 0, 15, 0, 14, 1] := by decide
/-- Section 2.7: the control words whose result is zero, and the number whose result is negative. -/
theorem test_alu_every_flag :
    ((List.range 64).filter fun k => (alu [true, true, false, false] [true, false, true, false]
      (Ctrl.unpack (BitVec.ofNat 6 k))).zr) = [8, 24, 32, 36, 40, 42, 44, 47, 56, 59, 61] ∧
    ((List.range 64).filter fun k => (alu [true, true, false, false] [true, false, true, false]
      (Ctrl.unpack (BitVec.ofNat 6 k))).ng) =
      [1, 2, 5, 6, 9, 11, 13, 15, 17, 19, 20, 23, 25, 26, 28, 30,
      33, 35, 37, 38, 41, 43, 45, 46, 49, 51, 52, 54, 57, 58, 60, 62] := by decide
/-- The presets in the order of 30_encoding.md R76. -/
def presets : List Instr :=
  [.aluZero, .aluOne, .aluNeg1, .aluX, .aluY, .aluNotx, .aluNoty, .aluNegx, .aluNegy, .aluIncx, .aluIncy, .aluDecx, .aluDecy,
    .aluAdd, .aluSubxy, .aluSubyx, .aluAnd, .aluOr]
/-- The value and flags of every preset on one operand pair of 16 bits. -/
def presetResults (x y : Nat) : List (Option (Nat × Bit × Bit)) :=
  presets.map fun i => (aluAfter i (vec 16 x) (vec 16 y)).map fun o => (uint o.out, o.zr, o.ng)
/-- Section 2.8, table 1. -/
theorem test_presets_1 : presetResults 0x0011 0x0003 =
    [some (0x0000, true, false), some (0x0001, false, false), some (0xFFFF, false, true), some (0x0011, false, false),
      some (0x0003, false, false), some (0xFFEE, false, true), some (0xFFFC, false, true), some (0xFFEF, false, true),
      some (0xFFFD, false, true), some (0x0012, false, false), some (0x0004, false, false), some (0x0010, false, false),
      some (0x0002, false, false), some (0x0014, false, false), some (0x000E, false, false), some (0xFFF2, false, true),
      some (0x0001, false, false), some (0x0013, false, false)] := by decide
/-- Section 2.8, table 2. -/
theorem test_presets_2 : presetResults 0x8000 0x0001 =
    [some (0x0000, true, false), some (0x0001, false, false), some (0xFFFF, false, true), some (0x8000, false, true),
      some (0x0001, false, false), some (0x7FFF, false, false), some (0xFFFE, false, true), some (0x8000, false, true),
      some (0xFFFF, false, true), some (0x8001, false, true), some (0x0002, false, false), some (0x7FFF, false, false),
      some (0x0000, true, false), some (0x8001, false, true), some (0x7FFF, false, false), some (0x8001, false, true),
      some (0x0000, true, false), some (0x8001, false, true)] := by decide
/-- Section 2.8, table 3. -/
theorem test_presets_3 : presetResults 0xFFFB 0x0007 =
    [some (0x0000, true, false), some (0x0001, false, false), some (0xFFFF, false, true), some (0xFFFB, false, true),
      some (0x0007, false, false), some (0x0004, false, false), some (0xFFF8, false, true), some (0x0005, false, false),
      some (0xFFF9, false, true), some (0xFFFC, false, true), some (0x0008, false, false), some (0xFFFA, false, true),
      some (0x0006, false, false), some (0x0002, false, false), some (0xFFF4, false, true), some (0x000C, false, false),
      some (0x0003, false, false), some (0xFFFF, false, true)] := by decide
/-- Section 2.9, W1 to W13. -/
theorem test_alu_width_corners :
    alu [] [] (Ctrl.unpack 0b111111#6) = ⟨[], true, false⟩ ∧
    alu [] [] (Ctrl.unpack 0b111010#6) = ⟨[], true, false⟩ ∧
    alu [] [] (Ctrl.unpack 0b001101#6) = ⟨[], true, false⟩ ∧
    alu [false] [false] (Ctrl.unpack 0b111111#6) = ⟨[true], false, true⟩ ∧
    alu [false] [false] (Ctrl.unpack 0b111010#6) = ⟨[true], false, true⟩ ∧
    alu [true] [true] (Ctrl.unpack 0b000010#6) = ⟨[false], true, false⟩ ∧
    alu [true, false] [true, true, true, true] (Ctrl.unpack 0b001101#6) = ⟨[false, true, true, true], false, true⟩ ∧
    alu [true, false] [true, true, true, true] (Ctrl.unpack 0b000010#6) = ⟨[false, false, false, false], true, false⟩ ∧
    alu [true, false] [true, true, true, true] (Ctrl.unpack 0b010011#6) = ⟨[false, true, false, false], false, false⟩ ∧
    alu [true, true, true, true] [true, false] (Ctrl.unpack 0b000111#6) = ⟨[false, true, false, false], false, false⟩ ∧
    alu [true, false, true] [] (Ctrl.unpack 0b001111#6) = ⟨[true, true, false], false, false⟩ ∧
    alu [] [true, false, true] (Ctrl.unpack 0b001100#6) = ⟨[false, false, false], true, false⟩ ∧
    alu [true, true, false, false] [true, true, false, false] (Ctrl.unpack 0b010011#6) = ⟨[false, false, false, false], true, false⟩ := by decide
/-- Section 2.10, V1 to V3: where the flag readings of the 16-bit wrapper agree and where they differ. -/
theorem test_wrapper :
    alu16 .general [] [] (Ctrl.unpack 0b111111#6) = ⟨vec 16 0, true, false⟩ ∧
    alu16 .general [true] [false] (Ctrl.unpack 0b111010#6) = ⟨vec 16 1, false, true⟩ ∧
    alu16 .recomputed [true] [false] (Ctrl.unpack 0b111010#6) = ⟨vec 16 1, false, false⟩ ∧
    alu16 .general (vec 17 0x10000) (vec 16 0) (Ctrl.unpack 0b001100#6) = ⟨vec 16 0, false, true⟩ ∧
    alu16 .recomputed (vec 17 0x10000) (vec 16 0) (Ctrl.unpack 0b001100#6) = ⟨vec 16 0, true, false⟩ := by decide

/-! ## Steps of the host's script (95_test_vectors.md section 3) -/

/-- P1, step 1 of its first run: `slo, c1 = add alo, blo`. -/
theorem test_step_add_names_outputs :
    (goesTo (step (withScript [.eval 0x080 [.name 0, .name 2] [some 4, some 6]]
      [(0, .vec [true, true, false, true]), (2, .vec [true, true, true, false])]))).map
      (fun s => (lookup s.names 4, lookup s.names 6, s.line)) =
    some (some (.vec [false, true, false, false]), some (.bit true), 1) := by decide
/-- P1, step 3 of its first run: `shi, c3 = inc shi`, a source that is also a destination. -/
theorem test_step_inc_reads_before_binding :
    (goesTo (step (withScript [.eval 0x0C0 [.name 5] [some 5, some 8]] [(5, .vec [false, false, false, true])]))).map
      (fun s => (lookup s.names 5, lookup s.names 8)) = some (some (.vec [true, false, false, true]), some (.bit false)) := by
  decide
/-- P2, first run: `if ng goto less` is taken. -/
theorem test_step_branch :
    (goesTo (step (withScript [.branch false 2 7, .label 6, .label 7] [(2, .bit true)]))).map (·.line) = some 2 ∧
    (goesTo (step (withScript [.branch true 2 7, .label 6, .label 7] [(2, .bit true)]))).map (·.line) = some 1 := by decide
/-- P2, its first line with x = 7, y = 9, written with the preset's name: `d, zr, ng = alu.subxy x, y`. -/
theorem test_step_preset_line :
    (goesTo (step (withScript [opLine .aluSubxy [.name 0, .name 1] [some 2, some 3, some 4]]
      [(0, .vec (vec 16 7)), (1, .vec (vec 16 9))]))).map
      (fun s => (lookup s.names 2, lookup s.names 3, lookup s.names 4)) =
    some (some (.vec (vec 16 0xFFFE)), some (.bit false), some (.bit true)) := by decide
/-- A reserved OPWORD is refused (30_encoding.md R72). -/
theorem test_step_reserved : refusal (step (withScript [.eval 0x140 [] []] [])) = some (.reservedOpword 0x140) := by decide
/-- A vector at a Bit port, an identifier with no value, a missing operand and a missing label are refused. -/
theorem test_step_refusals :
    refusal (step (withScript [.eval 0x000 [.lit (.vec []), .lit (.bit true)] [none, none]] [])) = some .valueKind ∧
    refusal (step (withScript [.eval 0x0C0 [.name 3] [none, none]] [])) = some (.unboundName 3) ∧
    refusal (step (withScript [.eval 0x0C0 [] [none, none]] [])) = some .operandCount ∧
    refusal (step (withScript [.goto 4] [])) = some (.unknownLabel 4) := by decide
/-- A placed word is run by the next step. -/
theorem test_step_placed_word :
    (goesTo (step ((withAlu (vec 16 0x0011) (vec 16 0x0003)).withFetchWord 16 0x113))).map (fun s => uint s.outputs.alu.out) =
      some 0x000E := by decide

/-! ## Witnesses: for each statement with hypotheses, a state and operands that meet them -/

/-- AdderLowBitsIgnoreHighBits: operands that agree below position 1 and differ at it. -/
theorem witness_low_bits : ∀ i < 1, bitAt (withAdd [true, false] [true]).inputs.add.a i = bitAt (withAdd [true, true] [true]).inputs.add.a i ∧
    bitAt (withAdd [true, false] [true]).inputs.add.b i = bitAt (withAdd [true, true] [true]).inputs.add.b i := by decide
/-- AdderSignedReading, at its least width. -/
theorem witness_signed_width : 1 ≤ max (withAdd [true] []).inputs.add.a.length (withAdd [true] []).inputs.add.b.length := by decide
/-- IncrementerOverflow: an all-ones operand with overflow, one without, and the empty one. -/
theorem witness_incrementer :
    (withInc [true]).inputs.inc.a ≠ [] ∧ (∀ b ∈ (withInc [true]).inputs.inc.a, b = true) ∧ (incAfter [true]).map (·.overflow) = some true ∧
    (withInc [false]).inputs.inc.a ≠ [] ∧ (withInc []).inputs.inc.a = [] := by decide
/-- AluSixStages, AluAdditionIsTheAddersSum, AluAndPath: control words of each function, at a width with a position. -/
theorem witness_functions : ctrlAdd.f = true ∧ ctrlAdd.no = false ∧ ctrlAnd.f = false ∧ ctrlAnd.no = false ∧
    0 < max (withAlu [true] []).inputs.alu.x.length (withAlu [true] []).inputs.alu.y.length := by decide
/-- ConditionerZeroesBeforeInverting: a pad position. -/
theorem witness_pad_position : ([true] : Bits).length ≤ 1 ∧ 1 < 2 := by decide
/-- FlagsOfEveryAluEvaluation, FlagsAreExclusive, ZeroExtensionIsInvisible: an ALU operation, with a result of width 1 and one of width 0. -/
theorem witness_alu_operation : Instr.unitOf .aluOne = .alu ∧ (aluAfter .aluOne [true] []).map (·.out.length) = some 1 ∧
    (aluAfter .aluOne [] []).map (·.out.length) = some 0 := by decide
/-- FlagsDependOnOutOnly: two different evaluations with one result. -/
theorem witness_equal_out : Instr.unitOf .aluX = .alu ∧ Instr.unitOf .aluAnd = .alu ∧
    (aluAfter .aluX [true] []).map (·.out) = (aluAfter .aluAnd [true] [true]).map (·.out) := by decide
/-- AluAtWidthZero. -/
theorem witness_width_zero : Instr.unitOf .aluNeg1 = .alu ∧ (withAlu [] []).inputs.alu.x = [] ∧ (withAlu [] []).inputs.alu.y = [] := by decide
/-- ConstantOneAtWidthOne, SignOfDifference. -/
theorem witness_width_one : max (withAlu [] [false]).inputs.alu.x.length (withAlu [] [false]).inputs.alu.y.length = 1 := by decide
/-- SignOfDifference: a difference that does not wrap and one that does (95_test_vectors.md P2, 0x8000 and 0x0001). -/
theorem witness_difference :
    (-(2 ^ 15 : Int) ≤ sint (vec 16 7) - sint (vec 16 9) ∧ sint (vec 16 7) - sint (vec 16 9) < 2 ^ 15) ∧
    ¬ (-(2 ^ 15 : Int) ≤ sint (vec 16 0x8000) - sint (vec 16 1)) := by decide
/-- PresetIsAlias, DecodeEncodeAgree: a preset, a core form, a word that decodes. -/
theorem witness_forms : Instr.wellFormed .aluOr = false ∧ Instr.wellFormed (.alu ctrlOr) = true ∧ decode 0x115#9 = .op (.alu ctrlOr) := by decide
/-- ReadBeyondWidthIsZero: the first position beyond and the last below. -/
theorem witness_read : ([true] : Bits).length ≤ 1 ∧ 0 < ([true] : Bits).length := by decide
/-- EvaluationFrame, and two units for EvaluationOrderIsInvisible. -/
theorem witness_evaluation : (goesTo (exec .fa State.reset)).isSome = true ∧ Instr.unitOf .fa ≠ .ha ∧ Instr.unitOf .fa ≠ .add ∧
    Instr.unitOf .fa ≠ .inc ∧ Instr.unitOf .fa ≠ .alu ∧ Instr.unitOf .ha ≠ .fa := by decide
/-- EqualInputsEqualOutputs: two different states that agree at the incrementer's port. -/
theorem witness_equal_inputs : inputValues (Instr.unitOf .inc) (withInc [true]).inputs =
    inputValues (Instr.unitOf .inc) ({ withInc [true] with line := 3 } : State).inputs ∧ withInc [true] ≠ { withInc [true] with line := 3 } := by
  decide
/-- WrapperFlagReadings: operands of width 16. -/
theorem witness_wrapper_width : max (vec 16 1).length ([] : Bits).length = 16 := by decide
/-- DecodeOfEveryWord: a word for each clause. -/
theorem witness_decode_clauses :
    (BitVec.getLsbD 0x100#9 8 = true ∧ BitVec.getLsbD 0x100#9 7 = false ∧ BitVec.getLsbD 0x100#9 6 = false) ∧
    (BitVec.getLsbD 0x140#9 8 = true ∧ BitVec.getLsbD 0x140#9 6 = true) ∧
    (BitVec.getLsbD 0x0C1#9 8 = false ∧ ∃ k < 6, BitVec.getLsbD 0x0C1#9 k = true) ∧
    (BitVec.getLsbD 0x0C0#9 8 = false ∧ ∀ k < 6, BitVec.getLsbD 0x0C0#9 k = false) := by decide
/-- StepRunsDecodedOperation, OutputsReachTheHostsNames: an operation line that runs. -/
theorem witness_operation_line :
    (let s := withScript [.eval 0x000 [.lit (.bit true), .lit (.bit true)] [some 1, none]] [(0, .bit false)]
     let p := Inputs.reset.setHa { a := true, b := true }
     let t : State := { s with inputs := p, outputs := Outputs.reset.setHa { sum := false, carry := true } }
     s.script[s.line]? = some (.eval 0x000 [.lit (.bit true), .lit (.bit true)] [some 1, none]) ∧ decode 0x000#9 = .op .ha ∧
     resolveAll s.names [.lit (.bit true), .lit (.bit true)] = .ok [.bit true, .bit true] ∧
     drive .ha [.bit true, .bit true] s.inputs = .ok p ∧ exec .ha { s with inputs := p } = .next t ∧
     bindOutputs [some 1, none] (outputValues .ha t.outputs) t.names = .ok [(0, .bit false), (1, .bit false)] ∧
     namesCanonical s.names = true ∧ step s = .next { t with names := [(0, .bit false), (1, .bit false)], line := 1 } ∧
     ([some 1, none] : List (Option Nat))[0]? = some (some 1) ∧ (outputValues .ha t.outputs)[0]? = some (.bit false) ∧
     (∀ k' > 0, ([some 1, none] : List (Option Nat))[k']? ≠ some (some 1)) ∧
     some 0 ∉ ([some 1, none] : List (Option Nat))) := by
  refine ⟨rfl, rfl, rfl, rfl, rfl, rfl, rfl, rfl, rfl, rfl, ?_, by decide⟩
  intro k' hk
  match k', hk with
  | 1, _ => decide
  | k + 2, _ => simp
/-- StepRunsPlacedWord. -/
theorem witness_placed_word : decodeTableWord 16 0x13F = some (.alu ctrlOne) := by decide
/-- ReservedWordIsRefused: a line with a reserved unit, and one with a control field where none may be. -/
theorem witness_reserved :
    (withScript [.eval 0x1C0 [] []] []).script[0]? = some (.eval 0x1C0 [] []) ∧
    (BitVec.getLsbD 0x1C0#9 8 = true ∧ BitVec.getLsbD 0x1C0#9 7 = true) ∧
    (withScript [.eval 0x020 [] []] []).script[0]? = some (.eval 0x020 [] []) ∧
    (BitVec.getLsbD 0x020#9 8 = false ∧ ∃ k < 6, BitVec.getLsbD 0x020#9 k = true) := by decide
/-- HostLinesEvaluateNothing: a script's end and a line of each kind. -/
theorem witness_host_lines :
    (withScript [] []).script.length ≤ (withScript [] []).line ∧
    (withScript [.label 3] []).script[0]? = some (.label 3) ∧
    (withScript [.assign 1 (.lit (.bit false))] []).script[0]? = some (.assign 1 (.lit (.bit false))) ∧
    (withScript [.assign 1 (.name 2)] [(2, .bit true)]).script[0]? = some (.assign 1 (.name 2)) ∧
    lookup (withScript [.assign 1 (.name 2)] [(2, .bit true)]).names 2 = some (.bit true) ∧
    (withScript [.branch true 2 9] [(2, .bit true)]).script[0]? = some (.branch true 2 9) ∧
    lookup (withScript [.branch true 2 9] [(2, .bit true)]).names 2 = some (.bit true) := by decide
/-- ControlFlowReachesTheLabel: a goto and a branch that is taken. -/
theorem witness_control_flow :
    (withScript [.goto 9, .label 9] []).script = [.goto 9] ++ .label 9 :: [] ∧ Stmt.label 9 ∉ [Stmt.goto 9] ∧
    (withScript [.goto 9, .label 9] []).script[0]? = some (.goto 9) ∧
    (withScript [.branch false 2 9, .label 9] [(2, .bit true)]).script = [.branch false 2 9] ++ .label 9 :: [] ∧
    Stmt.label 9 ∉ [Stmt.branch false 2 9] ∧
    (withScript [.branch false 2 9, .label 9] [(2, .bit true)]).script[0]? = some (.branch false 2 9) ∧
    lookup (withScript [.branch false 2 9, .label 9] [(2, .bit true)]).names 2 = some (.bit (!false)) := by decide
/-- OnlyOperationLinesTouchPorts: a step at a line that is no operation line. -/
theorem witness_other_line : step (withScript [.label 0] []) = .next { withScript [.label 0] [] with line := 1 } ∧
    ∀ w args outs, (withScript [.label 0] []).script[0]? ≠ some (.eval w args outs) := ⟨rfl, by simp [withScript]⟩
/-- StepKeepsInvariant: a state with the invariant, and names, whose step goes on. -/
theorem witness_invariant :
    (withScript [.eval 0x0C0 [.name 0] [some 1, none]] [(0, .vec [true])]).Inv ∧
    (goesTo (step (withScript [.eval 0x0C0 [.name 0] [some 1, none]] [(0, .vec [true])]))).isSome = true := by decide

end Sys2Proof.Tests
end

section
/-! PROOFS. Evaluations: what they read and what they leave alone (10_state.md R25, R26). -/

namespace Sys2Proof.Machine

/-- Settles O38: an evaluation replaces output levels only. -/
theorem inputsAreReadOnly : Obligations.InputsAreReadOnly := fun i s =>
  ⟨s.setOutputs (evaluated i s), exec_eq i s, s.setOutputs_inputs _⟩

/-- The ALU under any of its names: the control word is the operation's own, so only the two operand ports are read. -/
theorem outputValues_evaluated_congr_alu {i : Instr} {s t : State} (hu : i.unitOf = .alu)
    (h : inputValues .alu s.inputs = inputValues .alu t.inputs) :
    outputValues .alu (evaluated i s) = outputValues .alu (evaluated i t) := by
  obtain ⟨c, hc⟩ := expand_of_unitOf_alu hu
  obtain ⟨hx, hy⟩ : s.inputs.alu.x = t.inputs.alu.x ∧ s.inputs.alu.y = t.inputs.alu.y := by
    simpa [inputValues] using h
  simp only [evaluated, hc, outputValues, Outputs.setAlu_alu, hx, hy]

/-- A unit's outputs after an evaluation follow from the levels at its own input ports. -/
theorem outputValues_evaluated_congr {i : Instr} {s t : State}
    (h : inputValues i.unitOf s.inputs = inputValues i.unitOf t.inputs) :
    outputValues i.unitOf (evaluated i s) = outputValues i.unitOf (evaluated i t) := by
  cases i with
  | ha =>
    obtain ⟨ha, hb⟩ : s.inputs.ha.a = t.inputs.ha.a ∧ s.inputs.ha.b = t.inputs.ha.b := by
      simpa [inputValues, Instr.unitOf] using h
    simp only [evaluated, Instr.expand, Instr.unitOf, outputValues, Outputs.setHa_ha, ha, hb]
  | fa =>
    obtain ⟨ha, hb, hc⟩ : s.inputs.fa.a = t.inputs.fa.a ∧ s.inputs.fa.b = t.inputs.fa.b ∧
        s.inputs.fa.carryIn = t.inputs.fa.carryIn := by
      simpa [inputValues, Instr.unitOf] using h
    simp only [evaluated, Instr.expand, Instr.unitOf, outputValues, Outputs.setFa_fa, ha, hb, hc]
  | add =>
    obtain ⟨ha, hb⟩ : s.inputs.add.a = t.inputs.add.a ∧ s.inputs.add.b = t.inputs.add.b := by
      simpa [inputValues, Instr.unitOf] using h
    simp only [evaluated, Instr.expand, Instr.unitOf, outputValues, Outputs.setAdd_add, ha, hb]
  | inc =>
    have ha : s.inputs.inc.a = t.inputs.inc.a := by simpa [inputValues, Instr.unitOf] using h
    simp only [evaluated, Instr.expand, Instr.unitOf, outputValues, Outputs.setInc_inc, ha]
  -- `alu` and its eighteen presets
  | _ => exact outputValues_evaluated_congr_alu rfl h

/-- Settles O40: both evaluations complete, and the unit's outputs are a function of its input ports. -/
theorem equalInputsEqualOutputs : Obligations.EqualInputsEqualOutputs := fun i s t h =>
  ⟨s.setOutputs (evaluated i s), t.setOutputs (evaluated i t), exec_eq i s, exec_eq i t,
    outputValues_evaluated_congr h⟩

end Sys2Proof.Machine
end

section
/-! PROOFS. Vectors: what a read returns at every position (20_memory.md R40). -/

namespace Sys2Proof.Machine

/-- Settles O34: the two laws of `bitAt`, beyond the width and below it. -/
theorem readBeyondWidthIsZero : Obligations.ReadBeyondWidthIsZero := fun _ _ =>
  ⟨bitAt_of_length_le, bitAt_eq_getElem⟩

end Sys2Proof.Machine
end

section
/-! PROOFS. The half adder and the full adder: their gates and the count of their bits (40_adders.md R80, R82, R83). -/

namespace Sys2Proof.Machine

theorem exec_ha (s : State) :
    exec .ha s = .next (s.setOutputs (s.outputs.setHa (halfAdder s.inputs.ha.a s.inputs.ha.b))) := exec_eq .ha s

theorem exec_fa (s : State) :
    exec .fa s = .next (s.setOutputs (s.outputs.setFa
      (fullAdder s.inputs.fa.a s.inputs.fa.b s.inputs.fa.carryIn))) := exec_eq .fa s

theorem halfAdder_eq (a b : Bit) : halfAdder a b = { sum := a ^^ b, carry := a && b } := by
  simp only [halfAdder, gateXor_eq, gateAnd_eq]

theorem fullAdder_eq (a b c : Bit) :
    fullAdder a b c = { sum := (a ^^ b) ^^ c, carryOut := (a && b) || ((a ^^ b) && c) } := by
  rw [← fullAdder_sum, ← fullAdder_carryOut]

/-- The first half adder carries only when its sum is 0, and then the second cannot carry. -/
theorem halfAdder_carries_exclusive (a b c : Bit) :
    ¬ ((halfAdder a b).carry = true ∧ (halfAdder (halfAdder a b).sum c).carry = true) := by
  simp only [halfAdder_eq, Bool.and_eq_true]
  rintro ⟨⟨rfl, rfl⟩, hsum, -⟩
  exact absurd hsum (by decide)

/-- Settles O1: the two gates of the half adder, put in the evaluation's next state. -/
theorem halfAdderEvaluation : Obligations.HalfAdderEvaluation := by
  refine ⟨by decide, by decide, fun s => ?_⟩
  rw [exec_ha, halfAdder_eq]
  rfl

/-- Settles O3: the composition of the two half adders, put in the evaluation's next state. -/
theorem fullAdderEvaluation : Obligations.FullAdderEvaluation := by
  refine ⟨by decide, by decide, fun s => ?_⟩
  dsimp only
  rw [exec_fa, fullAdder_eq]
  rfl

/-- Settles O4: a stage counts its three bits, and its half adders' carries exclude each other. -/
theorem fullAdderSumsThreeBits : Obligations.FullAdderSumsThreeBits := fun s =>
  ⟨⟨_, exec_fa s, fullAdder_count _ _ _⟩, halfAdder_carries_exclusive _ _ _⟩

end Sys2Proof.Machine
end

section
/-! PROOFS. The ripple-carry adder as a chain of full adders (40_adders.md R84). -/

namespace Sys2Proof.Machine

theorem exec_add (s : State) :
    exec .add s = .next (s.setOutputs (s.outputs.setAdd (nBitAdder s.inputs.add.a s.inputs.add.b))) :=
  exec_eq .add s

/-- Settles O5: the carry into position `i` is the loop's running carry after `i` positions. -/
theorem adderCarryChain : Obligations.AdderCarryChain := by
  refine ⟨by decide, by decide, fun s => ?_⟩
  refine ⟨fun i => (ripple s.inputs.add.a s.inputs.add.b i).carry, _, exec_add s,
    nBitAdder_sum_length _ _, rfl, rfl, fun i hi => ⟨?_, ?_⟩⟩
  · exact (bitAt_ripple_sum hi).trans (fullAdder_sum _ _ _)
  · exact (ripple_succ_carry _ _ i).trans (fullAdder_carryOut _ _ _)

end Sys2Proof.Machine
end

section
/-! PROOFS. The incrementer: its value, and when it overflows (40_adders.md R91, 90_conflicts.md C1). -/

namespace Sys2Proof.Machine

theorem exec_inc (s : State) :
    exec .inc s = .next (s.setOutputs (s.outputs.setInc (incrementer s.inputs.inc.a))) := exec_eq .inc s

@[simp] theorem incrementer_result_length (a : Bits) : (incrementer a).result.length = max a.length 1 :=
  nBitAdder_sum_length a [true]

theorem incrementer_nil : incrementer [] = { result := [true], overflow := false } := rfl

/-- The value of the incrementer's outputs. -/
theorem incrementer_value (a : Bits) :
    uint (incrementer a).result + 2 ^ max a.length 1 * (incrementer a).overflow.toNat = uint a + 1 :=
  nBitAdder_value a [true]

/-- All ones is the greatest value of its width. -/
theorem uint_succ_eq_two_pow_iff (v : Bits) : uint v + 1 = 2 ^ v.length ↔ ∀ b ∈ v, b = true := by
  have hones := uint_ones v.length
  calc uint v + 1 = 2 ^ v.length
    _ ↔ uint v = uint (ones v.length) := by omega
    _ ↔ v = ones v.length := ⟨uint_inj (by simp [ones]), congrArg uint⟩
    _ ↔ ∀ b ∈ v, b = true := by simp [ones, List.eq_replicate_iff]

/-- An overflow leaves nothing but zeros, as what is below the carry is less than one whole turn. -/
theorem incrementer_result_of_overflow {a : Bits} (h : (incrementer a).overflow = true) :
    (incrementer a).result = zeros (max a.length 1) := by
  have hval := incrementer_value a
  have hle : uint a + 1 ≤ 2 ^ max a.length 1 :=
    (uint_lt a).trans_le (Nat.pow_le_pow_right (by decide) (le_max_left _ _))
  apply uint_inj (by simp [zeros])
  rw [h, Bool.toNat_true, mul_one] at hval
  rw [uint_zeros]
  omega

/-- On a vector that is not empty, the carry out is 1 exactly when the value fills the width. -/
theorem incrementer_overflow_iff {a : Bits} (ha : a ≠ []) :
    (incrementer a).overflow = true ↔ ∀ b ∈ a, b = true := by
  have hwidth : max a.length 1 = a.length := max_eq_left (List.length_pos_iff.mpr ha)
  have hval := incrementer_value a
  have hlt := uint_lt (incrementer a).result
  rw [incrementer_result_length] at hlt
  rw [hwidth] at hval hlt
  rw [← uint_succ_eq_two_pow_iff]
  cases hov : (incrementer a).overflow with
  | false =>
    rw [hov, Bool.toNat_false, mul_zero] at hval
    simp only [Bool.false_eq_true, false_iff]
    omega
  | true =>
    have hres := incrementer_result_of_overflow hov
    rw [hov, hres, uint_zeros, Bool.toNat_true, mul_one] at hval
    simp only [true_iff]
    omega

/-- Settles O12: the overflow's condition and result for a vector that is not empty, the computed pair for the empty one. -/
theorem incrementerOverflow : Obligations.IncrementerOverflow := by
  refine fun s => ⟨_, exec_inc s, fun ha => ⟨incrementer_overflow_iff ha, fun hov => ?_⟩, fun ha => ?_⟩
  · rw [incrementer_result_of_overflow hov, max_eq_left (List.length_pos_iff.mpr ha)]
  · rw [ha, incrementer_nil]
    exact ⟨rfl, rfl⟩

end Sys2Proof.Machine
end

section
/-! PROOFS. The ALU's stages, one rule each, and the answers of its operations (41_alu.md R110 to R119). -/

namespace Sys2Proof.Machine

/-- Every operation of the ALU unit answers with `alu` under the control word it stands for. -/
theorem aluAnswers_of_expand {i : Instr} {c : Ctrl} {s : State} {P : AluOut → Prop} (h : i.expand = .alu c)
    (hP : P (alu s.inputs.alu.x s.inputs.alu.y c)) : AluAnswers i s P :=
  ⟨_, exec_of_expand h s, hP⟩

theorem aluAnswers_alu {c : Ctrl} {s : State} {P : AluOut → Prop}
    (hP : P (alu s.inputs.alu.x s.inputs.alu.y c)) : AluAnswers (.alu c) s P :=
  aluAnswers_of_expand rfl hP

/-- The first five stages: what reaches the flag processor. -/
theorem alu_out (x y : Bits) (c : Ctrl) :
    (alu x y c).out = negateOut (functionUnit (condition x c.zx c.nx (max x.length y.length))
      (condition y c.zy c.ny (max x.length y.length)) c.f (max x.length y.length)) c.no := rfl

/-! ## Conditioner -/

/-- Zeroing is a choice between 0 and the operand's bit, made before the inversion. -/
theorem bitAt_condition_ite {n i : Nat} (v : Bits) (z neg : Bit) (h : i < n) :
    bitAt (condition v z neg n) i = (neg ^^ (if z then false else bitAt v i)) := by
  rw [bitAt_condition v z neg h]
  cases z <;> rfl

/-- A conditioned bit as R110 writes it: the pad, then the two switches. -/
theorem bitAt_condition_stages {n i : Nat} (v : Bits) (z neg : Bit) (h : i < n) :
    bitAt (condition v z neg n) i =
      (let t := if i < v.length then bitAt v i else false
       let t := if z then false else t
       if neg then !t else t) := by
  have hpad : (if i < v.length then bitAt v i else false) = bitAt v i := by
    split
    · rfl
    · exact (bitAt_of_length_le (by omega)).symm
  rw [bitAt_condition_ite v z neg h, hpad]
  cases neg <;> simp

/-! ## Function unit and output negator -/

theorem functionUnit_and_comm (v w : Bits) (n : Nat) : functionUnit v w false n = functionUnit w v false n :=
  bits_ext (by simp) fun i hi => by
    rw [functionUnit_length] at hi
    rw [bitAt_functionUnit_and v w hi, bitAt_functionUnit_and w v hi, Bool.and_comm]

/-- All ones is neutral for the AND path. -/
theorem functionUnit_and_ones {v : Bits} {n : Nat} (hv : v.length = n) : functionUnit v (ones n) false n = v :=
  bits_ext (by simp [hv]) fun i hi => by
    rw [functionUnit_length] at hi
    have hone : bitAt (ones n) i = true := by simp [bitAt, ones, hi]
    rw [bitAt_functionUnit_and v (ones n) hi, hone, Bool.and_true]

/-- A bit of the addition path is the full adder's sum under the loop's running carry. -/
theorem bitAt_functionUnit_add {xp yp : Bits} {n i : Nat} (hx : xp.length = n) (hy : yp.length = n) (h : i < n) :
    bitAt (functionUnit xp yp true n) i = ((bitAt xp i ^^ bitAt yp i) ^^ (ripple xp yp i).carry) := by
  rw [functionUnit_add hx hy, ← fullAdder_sum]
  exact bitAt_ripple_sum (by rwa [hx, hy, max_self])

/-- The negator written with Boolean negation. -/
theorem negateOut_eq (v : Bits) (no : Bit) : negateOut v no = if no then v.map (fun b => !b) else v := by
  cases no with
  | false => rfl
  | true => exact negateOut_true v

/-! ## Flag processor -/

/-- `zr` read off the positions of the result. -/
theorem zeroFlag_eq_true_iff_bitAt {v : Bits} : zeroFlag v = true ↔ ∀ i < v.length, bitAt v i = false := by
  rw [zeroFlag_eq_true, List.forall_mem_iff_forall_getElem]
  exact forall₂_congr fun i hi => by rw [bitAt_eq_getElem hi]

theorem negFlag_of_pos {v : Bits} (h : 1 ≤ v.length) : negFlag v = bitAt v (v.length - 1) := if_pos h

theorem negFlag_of_length_zero {v : Bits} (h : v.length = 0) : negFlag v = false := if_neg (by omega)

/-! ## The obligations on single stages -/

/-- Settles O15: the other side, conditioned to all ones, is neutral for AND, so the conditioned operand is the result. -/
theorem conditionerAtTheOutput : Obligations.ConditionerAtTheOutput := by
  intro z neg s
  refine ⟨aluAnswers_alu ⟨alu_out_length _ _ _, ?_⟩, aluAnswers_alu ⟨alu_out_length _ _ _, ?_⟩⟩
  · have hout := (alu_out s.inputs.alu.x s.inputs.alu.y ⟨z, neg, true, true, false, false⟩).trans (negateOut_false _)
    rw [condition_one, functionUnit_and_ones (condition_length _ _ _ _)] at hout
    exact ⟨hout, fun i hi => by rw [hout, bitAt_condition_stages _ _ _ hi]⟩
  · have hout := (alu_out s.inputs.alu.x s.inputs.alu.y ⟨true, true, z, neg, false, false⟩).trans (negateOut_false _)
    rw [condition_one, functionUnit_and_comm, functionUnit_and_ones (condition_length _ _ _ _)] at hout
    exact ⟨hout, fun i hi => by rw [hout, bitAt_condition_stages _ _ _ hi]⟩

/-- Settles O17: at equal widths the function unit passes the adder's sum on uncut, and a clear negator leaves it alone. -/
theorem aluAdditionIsTheAddersSum : Obligations.AluAdditionIsTheAddersSum := by
  intro c s n xp yp hf hno
  refine ⟨nBitAdder xp yp, exec_add _, aluAnswers_alu ⟨?_, alu_out_length _ _ _⟩⟩
  rw [alu_out, hno, negateOut_false, hf]
  exact functionUnit_add (condition_length _ _ _ _) (condition_length _ _ _ _)

/-- Settles O18: the AND path's bits, which a clear negator leaves alone. -/
theorem aluAndPath : Obligations.AluAndPath := by
  intro c s n hf hno
  refine aluAnswers_alu ⟨alu_out_length _ _ _, fun i hi => ?_⟩
  rw [alu_out, hno, negateOut_false, hf]
  exact bitAt_functionUnit_and _ _ hi

/-- Settles O19: the negator's two cases, on the function unit's result. -/
theorem outputNegator : Obligations.OutputNegator := fun _ _ =>
  aluAnswers_alu ⟨alu_out_length _ _ _, negateOut_eq _ _⟩

/-- Settles O20: every ALU operation is `alu` under a control word, whose flags are the flag processor's. -/
theorem flagsOfEveryAluEvaluation : Obligations.FlagsOfEveryAluEvaluation := by
  intro i s hi
  obtain ⟨c, hc⟩ := expand_of_unitOf_alu hi
  exact aluAnswers_of_expand hc ⟨zeroFlag_eq_true_iff_bitAt, negFlag_of_pos, negFlag_of_length_zero⟩

/-- Settles O21: both results are `withFlags` of their `out`, so equal `out` gives equal flags. -/
theorem flagsDependOnOutOnly : Obligations.FlagsDependOnOutOnly := by
  intro i j s t hi hj
  obtain ⟨c, hc⟩ := expand_of_unitOf_alu hi
  obtain ⟨d, hd⟩ := expand_of_unitOf_alu hj
  refine aluAnswers_of_expand hc (aluAnswers_of_expand hd fun hout => ?_)
  rw [alu_flags, hout, ← alu_flags]
  exact ⟨rfl, rfl⟩

end Sys2Proof.Machine
end

section
/-! PROOFS. The ALU's OPWORD and its six stages together (30_encoding.md R69 to R71, 41_alu.md R125). -/

namespace Sys2Proof.Machine

/-! ## The OPWORD of a control word -/

/-- The six switches and their packed form determine each other (30_encoding.md R69). -/
theorem unpack_pack (c : Ctrl) : Ctrl.unpack c.pack = c := by
  obtain ⟨zx, nx, zy, ny, f, no⟩ := c
  revert zx nx zy ny f no
  decide

theorem encode_alu (c : Ctrl) : encode (.alu c) = 0b100#3 ++ c.pack := rfl

theorem unitField_encode_alu (c : Ctrl) : unitField (encode (.alu c)) = 0b100#3 := by
  rw [encode_alu, unitField, BitVec.extractLsb'_append_eq_left]

theorem ctrlField_encode_alu (c : Ctrl) : ctrlField (encode (.alu c)) = c.pack := by
  rw [encode_alu, ctrlField, BitVec.extractLsb'_append_eq_right]

theorem decode_encode_alu (c : Ctrl) : decode (encode (.alu c)) = .op (.alu c) := by
  simp only [decode, unitField_encode_alu, ctrlField_encode_alu, unpack_pack, if_true]

/-- Bit `k` of the control field is bit `k` of the word. -/
theorem getLsbD_encode_alu (c : Ctrl) {k : Nat} (hk : k < 6) : (encode (.alu c)).getLsbD k = c.pack.getLsbD k := by
  rw [encode_alu, BitVec.getLsbD_append, if_pos hk]

/-- The control bits of the word, each against its switch. -/
theorem encode_alu_ctrl_bits (c : Ctrl) :
    (encode (.alu c)).getLsbD 5 = c.zx ∧ (encode (.alu c)).getLsbD 4 = c.nx ∧ (encode (.alu c)).getLsbD 3 = c.zy ∧
      (encode (.alu c)).getLsbD 2 = c.ny ∧ (encode (.alu c)).getLsbD 1 = c.f ∧ (encode (.alu c)).getLsbD 0 = c.no := by
  have h := unpack_pack c
  iterate 6 rw [getLsbD_encode_alu c (by decide)]
  exact ⟨congrArg Ctrl.zx h, congrArg Ctrl.nx h, congrArg Ctrl.zy h, congrArg Ctrl.ny h, congrArg Ctrl.f h,
    congrArg Ctrl.no h⟩

/-! ## A bit of the result -/

theorem bitAt_alu_out {x y : Bits} {i : Nat} (c : Ctrl) (h : i < max x.length y.length) :
    bitAt (alu x y c).out i = (c.no ^^ bitAt (functionUnit (condition x c.zx c.nx (max x.length y.length))
      (condition y c.zy c.ny (max x.length y.length)) c.f (max x.length y.length)) i) := by
  rw [alu_out, bitAt_negateOut c.no (by rwa [functionUnit_length])]

/-- Settles O14: the carry into position `i` of an addition is the loop's running carry on the conditioned operands. -/
theorem aluSixStages : Obligations.AluSixStages := by
  refine fun c => ⟨⟨decode_encode_alu c, unitField_encode_alu c, encode_alu_ctrl_bits c⟩, ?_⟩
  intro s x y n xp yp
  let xc := condition x c.zx c.nx n
  let yc := condition y c.zy c.ny n
  have hx : ∀ i < n, bitAt xc i = xp i := fun i hi => bitAt_condition_ite x c.zx c.nx hi
  have hy : ∀ i < n, bitAt yc i = yp i := fun i hi => bitAt_condition_ite y c.zy c.ny hi
  have hlen : (alu x y c).out.length = n := alu_out_length x y c
  refine ⟨fun i => (ripple xc yc i).carry, alu x y c, exec_of_expand rfl s, hlen, ?add, ?and, ?zr, ?ng⟩
  case add =>
    refine fun hf => ⟨rfl, fun i hi => ⟨?_, ?_⟩⟩
    · rw [bitAt_alu_out c hi, hf, bitAt_functionUnit_add (condition_length _ _ _ _) (condition_length _ _ _ _) hi]
      rw [← hx i hi, ← hy i hi]
    · rw [← hx i hi, ← hy i hi, ← fullAdder_carryOut]
      exact ripple_succ_carry xc yc i
  case and =>
    intro hf i hi
    rw [bitAt_alu_out c hi, hf, bitAt_functionUnit_and _ _ hi, ← hx i hi, ← hy i hi]
  case zr =>
    rw [← hlen]
    exact zeroFlag_eq_true_iff_bitAt
  case ng =>
    rw [← hlen]
    rfl

end Sys2Proof.Machine
end

section
/-! PROOFS. The absence of exceptions (60_exceptions.md R150, R151). -/

namespace Sys2Proof.Machine

/-- No step faults, since there is no reason to fault with (R150; log entry 20). -/
theorem step_ne_fault (s : State) (r : Fault) : step s ≠ .fault r := nomatch r

/-- Settles O42: what an evaluation comes to is given by `exec_eq`, at every width and for every level of the flags. -/
theorem everyEvaluationCompletes : Obligations.EveryEvaluationCompletes :=
  ⟨fun i s => ⟨evaluated i s, exec_eq i s⟩, step_ne_fault⟩

end Sys2Proof.Machine
end

section
/-! PROOFS. OPWORD: its two fields, what decoding answers for them, and encoding as decoding's inverse
(30_encoding.md R69 to R76). -/

namespace Sys2Proof.Machine

/-! ## The fields of a word -/

theorem getLsbD_unitField (w : OpWord) {k : Nat} (hk : k < 3) : (unitField w).getLsbD k = w.getLsbD (6 + k) := by
  simp [unitField, hk]

theorem getLsbD_ctrlField (w : OpWord) {k : Nat} (hk : k < 6) : (ctrlField w).getLsbD k = w.getLsbD k := by
  simp [ctrlField, hk]

/-- The two fields make up the word (30_encoding.md R70). -/
theorem unitField_append_ctrlField (w : OpWord) : unitField w ++ ctrlField w = w := by
  refine BitVec.eq_of_getLsbD_eq fun k hk => ?_
  rw [BitVec.getLsbD_append]
  split
  · next h => exact getLsbD_ctrlField w h
  · rw [getLsbD_unitField w (by omega), Nat.add_sub_cancel' (by omega)]

/-- The unit is bits 8, 7 and 6 of the word (30_encoding.md R70). -/
theorem unitField_eq_iff (w : OpWord) (u : BitVec 3) :
    unitField w = u ↔ w.getLsbD 8 = u.getLsbD 2 ∧ w.getLsbD 7 = u.getLsbD 1 ∧ w.getLsbD 6 = u.getLsbD 0 := by
  constructor
  · rintro rfl
    exact ⟨(getLsbD_unitField w (k := 2) (by decide)).symm, (getLsbD_unitField w (k := 1) (by decide)).symm,
      (getLsbD_unitField w (k := 0) (by decide)).symm⟩
  · rintro ⟨h2, h1, h0⟩
    refine BitVec.eq_of_getLsbD_eq fun k hk => ?_
    rw [getLsbD_unitField w hk]
    interval_cases k
    · exact h0
    · exact h1
    · exact h2

theorem ctrlField_eq_zero_iff (w : OpWord) : ctrlField w = 0 ↔ ∀ k < 6, w.getLsbD k = false := by
  constructor
  · intro h k hk
    rw [← getLsbD_ctrlField w hk, h]
    exact BitVec.getLsbD_zero
  · exact fun h => BitVec.eq_of_getLsbD_eq fun k hk => by
      rw [getLsbD_ctrlField w hk, h k hk]
      exact BitVec.getLsbD_zero.symm

/-- The controls are bits 5 to 0 of the word (30_encoding.md R69). -/
theorem unpack_ctrlField (w : OpWord) :
    Ctrl.unpack (ctrlField w) = { zx := w.getLsbD 5, nx := w.getLsbD 4, zy := w.getLsbD 3, ny := w.getLsbD 2,
                                  f := w.getLsbD 1, no := w.getLsbD 0 } := by
  simp only [Ctrl.unpack, getLsbD_ctrlField w, Nat.reduceLT]

theorem pack_unpack (c : BitVec 6) : (Ctrl.unpack c).pack = c := by
  revert c
  decide

/-! ## What decoding answers -/

theorem decode_of_unit_alu {w : OpWord} (h : unitField w = 0b100#3) :
    decode w = .op (.alu (Ctrl.unpack (ctrlField w))) := if_pos h

theorem decode_of_reserved_unit {w : OpWord}
    (h : unitField w = 0b101#3 ∨ unitField w = 0b110#3 ∨ unitField w = 0b111#3) :
    decode w = .invalid .reservedUnit := by
  have halu : unitField w ≠ 0b100#3 := by rcases h with h | h | h <;> rw [h] <;> decide
  simp only [decode, if_neg halu, if_pos h]

/-- The operation of a unit without controls. -/
def unitOp : UnitName → Instr
  | .ha => .ha
  | .fa => .fa
  | .add => .add
  | .inc => .inc
  | .alu => .alu (Ctrl.unpack 0)

/-- Below the ALU's code and the reserved ones, a control field is refused, and without one the unit answers. -/
theorem decode_of_unit_ne_alu {w : OpWord} {u : UnitName} (hu : u ≠ .alu) (h : unitField w = unitCode u) :
    decode w = if ctrlField w = 0 then .op (unitOp u) else .invalid .nonzeroCtrl := by
  simp only [decode, h, ite_not]
  cases u with
  | alu => exact absurd rfl hu
  | _ => rfl

theorem reserved_or_unitCode (v : BitVec 3) : (v = 0b101#3 ∨ v = 0b110#3 ∨ v = 0b111#3) ∨ ∃ u, v = unitCode u := by
  have h : (v = 0b101#3 ∨ v = 0b110#3 ∨ v = 0b111#3) ∨
      v = unitCode .ha ∨ v = unitCode .fa ∨ v = unitCode .add ∨ v = unitCode .inc ∨ v = unitCode .alu := by
    revert v
    decide
  exact h.imp_right fun h => by rcases h with h | h | h | h | h <;> exact ⟨_, h⟩

/-- A word that decodes holds, field by field, what encoding gives its operation, which is a core form. -/
theorem fields_of_decode {w : OpWord} {i : Instr} (h : decode w = .op i) :
    i.wellFormed = true ∧ unitField w = unitCode i.unitOf ∧ ctrlField w = ctrlBits i := by
  rcases reserved_or_unitCode (unitField w) with hr | ⟨u, hu⟩
  · rw [decode_of_reserved_unit hr] at h
    cases h
  by_cases halu : u = .alu
  · subst halu
    rw [decode_of_unit_alu hu] at h
    cases h
    exact ⟨rfl, hu, (pack_unpack _).symm⟩
  · rw [decode_of_unit_ne_alu halu hu] at h
    split at h
    · next hc =>
      cases h
      cases u with
      | alu => exact absurd rfl halu
      | _ => exact ⟨rfl, hu, hc⟩
    · cases h

/-! ## The obligations on OPWORD -/

/-- Every core form is read back from its word. -/
theorem decode_encode {i : Instr} (h : i.wellFormed = true) : decode (encode i) = .op i := by
  cases i with
  | alu c => exact decode_encode_alu c
  | ha | fa | add | inc => decide
  | _ => exact absurd h (by decide)

/-- Every word that decodes is the word of the operation it decodes to. -/
theorem encode_of_decode {w : OpWord} {i : Instr} (h : decode w = .op i) : encode i = w := by
  obtain ⟨-, hu, hc⟩ := fields_of_decode h
  rw [encode, ← hu, ← hc, unitField_append_ctrlField]

/-- Settles O45: a core form's word is made of the fields that decoding reads, and decoding reads the whole word. -/
theorem decodeEncodeAgree : Obligations.DecodeEncodeAgree :=
  ⟨fun _ => decode_encode, fun _ _ => encode_of_decode⟩

/-- The core form of a preset is an `alu`, with the preset's word and meaning. -/
theorem expand_of_not_wellFormed {i : Instr} (h : i.wellFormed = false) :
    i.expand.wellFormed = true ∧ i.expand.unitOf = .alu ∧ encode i = encode i.expand := by
  cases i with
  | ha | fa | add | inc | alu => exact absurd h (by simp [Instr.wellFormed])
  | _ => exact ⟨rfl, rfl, rfl⟩

theorem expand_idem (i : Instr) : i.expand.expand = i.expand := by
  cases i <;> rfl

/-- An operation and the core form it stands for evaluate alike. -/
theorem exec_expand (i : Instr) (s : State) : exec i s = exec i.expand s := by
  rw [exec_eq, exec_eq, evaluated, evaluated, expand_idem]

/-- Settles O24: the word of a preset is its expansion's, which is a core form, so `decode_encode` reads it back. -/
theorem presetIsAlias : Obligations.PresetIsAlias := by
  refine ⟨fun i hi => ?_, fun w i h => (fields_of_decode h).1⟩
  obtain ⟨hwf, hunit, hword⟩ := expand_of_not_wellFormed hi
  exact ⟨hwf, hunit, hword, hword ▸ decode_encode hwf, exec_expand i⟩

/-- Settles O25: eighteen closed facts about `encode`. -/
theorem presetWords : Obligations.PresetWords := by
  unfold Obligations.PresetWords
  decide

/-- Settles O47: seven closed facts about `decode`. -/
theorem decodeSampleWords : Obligations.DecodeSampleWords := by
  unfold Obligations.DecodeSampleWords
  decide

/-- The reserved units are the codes with bit 8 and one of bits 7 and 6. -/
theorem decode_of_reserved_bits {w : OpWord} (h8 : w.getLsbD 8 = true) (h76 : w.getLsbD 7 = true ∨ w.getLsbD 6 = true) :
    decode w = .invalid .reservedUnit := by
  refine decode_of_reserved_unit ?_
  simp only [unitField_eq_iff, h8]
  revert h76
  cases w.getLsbD 7 <;> cases w.getLsbD 6 <;> decide

/-- The unit whose code is 0 followed by bits 7 and 6. -/
def unitOfBits (b7 b6 : Bool) : UnitName := if b7 then (if b6 then .inc else .add) else (if b6 then .fa else .ha)

theorem unitOfBits_ne_alu (b7 b6 : Bool) : unitOfBits b7 b6 ≠ .alu := by
  revert b7 b6
  decide

theorem unitOp_unitOfBits (b7 b6 : Bool) :
    unitOp (unitOfBits b7 b6) = if b7 then (if b6 then .inc else .add) else (if b6 then .fa else .ha) := by
  revert b7 b6
  decide

theorem unitField_of_bit8_clear {w : OpWord} (h8 : w.getLsbD 8 = false) :
    unitField w = unitCode (unitOfBits (w.getLsbD 7) (w.getLsbD 6)) := by
  rw [unitField_eq_iff, h8]
  cases w.getLsbD 7 <;> cases w.getLsbD 6 <;> decide

theorem decode_of_bit8_clear {w : OpWord} (h8 : w.getLsbD 8 = false) :
    decode w = if ctrlField w = 0 then .op (unitOp (unitOfBits (w.getLsbD 7) (w.getLsbD 6)))
      else .invalid .nonzeroCtrl :=
  decode_of_unit_ne_alu (unitOfBits_ne_alu _ _) (unitField_of_bit8_clear h8)

/-- A control field where none may be is refused (30_encoding.md R72). -/
theorem decode_of_nonzero_ctrl {w : OpWord} (h8 : w.getLsbD 8 = false) (hc : ∃ k < 6, w.getLsbD k = true) :
    decode w = .invalid .nonzeroCtrl := by
  obtain ⟨k, hk, hbit⟩ := hc
  rw [decode_of_bit8_clear h8, if_neg]
  rw [ctrlField_eq_zero_iff]
  exact fun h => absurd (h k hk) (by rw [hbit]; decide)

/-- Settles O46: the unit field's three bits choose the branch, and the control field's six are the switches. -/
theorem decodeOfEveryWord : Obligations.DecodeOfEveryWord := by
  refine fun w => ⟨fun h8 h7 h6 => ?_, decode_of_reserved_bits, decode_of_nonzero_ctrl, fun h8 hc => ?_⟩
  · rw [decode_of_unit_alu ((unitField_eq_iff w _).mpr ⟨h8, h7, h6⟩), unpack_ctrlField]
  · rw [decode_of_bit8_clear h8, if_pos ((ctrlField_eq_zero_iff w).mpr hc), unitOp_unitOfBits]

/-! ## Counting the words -/

theorem toNat_unitField_ofNat {n : Nat} (h : n < 512) : (unitField (BitVec.ofNat 9 n)).toNat = n / 64 := by
  simp only [unitField, BitVec.extractLsb'_toNat, BitVec.toNat_ofNat, Nat.shiftRight_eq_div_pow]
  omega

theorem toNat_ctrlField_ofNat (n : Nat) : (ctrlField (BitVec.ofNat 9 n)).toNat = n % 64 := by
  simp only [ctrlField, BitVec.extractLsb'_toNat, BitVec.toNat_ofNat, Nat.shiftRight_eq_div_pow]
  omega

/-- The words that name an operation: any control field in unit 100, none in units 000 to 011 (30_encoding.md R71, R72). -/
theorem exists_decode_iff (w : OpWord) :
    (∃ i, decode w = .op i) ↔ unitField w = 0b100#3 ∨ (unitField w < 0b100#3 ∧ ctrlField w = 0) := by
  constructor
  · rintro ⟨i, h⟩
    obtain ⟨hwf, hu, hc⟩ := fields_of_decode h
    cases i with
    | alu c => exact .inl hu
    | ha | fa | add | inc => exact .inr ⟨by rw [hu]; decide, hc⟩
    | _ => exact absurd hwf (by decide)
  · rintro (h | ⟨hlt, hc⟩)
    · exact ⟨_, decode_of_unit_alu h⟩
    · rcases reserved_or_unitCode (unitField w) with hr | ⟨u, hu⟩
      · rcases hr with h | h | h <;> exact absurd (h ▸ hlt) (by decide)
      · have halu : u ≠ .alu := by rintro rfl; exact absurd (hu ▸ hlt) (by decide)
        exact ⟨_, (decode_of_unit_ne_alu halu hu).trans (if_pos hc)⟩

/-- Whether a number below 512 is a valid OPWORD, by its two fields. -/
def validNumber (n : Nat) : Bool := n / 64 == 4 || (n / 64 < 4 && n % 64 == 0)

theorem decodeTableWord_eq_some_iff {n : Nat} {i : Instr} (nbits : Nat) :
    decodeTableWord nbits n = some i ↔ decode (tableWord nbits n) = .op i := by
  unfold decodeTableWord
  split <;> simp_all

theorem tableWord_of_lt {n : Nat} (h : n < 512) : tableWord 9 n = BitVec.ofNat 9 n := by
  have hmod : n % 2 ^ 9 = n := Nat.mod_eq_of_lt h
  simp only [tableWord, hmod, if_pos h]

theorem decodeTableWord_isSome {n : Nat} (h : n < 512) : (decodeTableWord 9 n).isSome = validNumber n := by
  rw [Bool.eq_iff_iff, Option.isSome_iff_exists]
  simp only [decodeTableWord_eq_some_iff, tableWord_of_lt h, exists_decode_iff, ← BitVec.toNat_inj, BitVec.lt_def,
    toNat_unitField_ofNat h, toNat_ctrlField_ofNat]
  simp [validNumber]

/-- How many of a unit's 64 words are valid. -/
def validInUnit (u : Nat) : Nat := if u = 4 then 64 else if u < 4 then 1 else 0

theorem validNumber_block (u : Nat) {k : Nat} (hk : k < 64) :
    validNumber (64 * u + k) = true ↔ u = 4 ∨ u < 4 ∧ k = 0 := by
  simp only [validNumber, Bool.or_eq_true, Bool.and_eq_true, beq_iff_eq, decide_eq_true_eq]
  omega

/-- The valid numbers are counted unit by unit. -/
theorem count_validNumber_succ (u : Nat) :
    Nat.count (validNumber · = true) (64 * (u + 1)) = Nat.count (validNumber · = true) (64 * u) + validInUnit u := by
  rw [mul_add_one, Nat.count_add]
  congr 1
  by_cases h4 : u = 4
  · rw [validInUnit, if_pos h4, Nat.count_iff_forall]
    exact fun k hk => (validNumber_block u hk).mpr (.inl h4)
  by_cases hlt : u < 4
  · have hfirst : validNumber (64 * u + 0) = true := (validNumber_block u (by decide)).mpr (.inr ⟨hlt, rfl⟩)
    have hrest : Nat.count (fun k => validNumber (64 * u + (1 + k)) = true) 63 = 0 :=
      Nat.count_iff_forall_not.mpr fun k hk h => by
        have := (validNumber_block u (k := 1 + k) (by omega)).mp h
        omega
    rw [validInUnit, if_neg h4, if_pos hlt, Nat.count_add _ 1 63, Nat.count_one, if_pos hfirst, hrest]
  · rw [validInUnit, if_neg h4, if_neg hlt, Nat.count_iff_forall_not]
    intro k hk h
    have := (validNumber_block u hk).mp h
    omega

theorem count_validNumber (u : Nat) :
    Nat.count (validNumber · = true) (64 * u) = ∑ i ∈ Finset.range u, validInUnit i := by
  induction u with
  | zero => rfl
  | succ u ih => rw [count_validNumber_succ, ih, Finset.sum_range_succ]

/-- Settles O48: of the numbers whose fields are a valid pair, 64 have unit 100 and one each of four other units. -/
theorem validWordCount : Obligations.ValidWordCount := by
  have hcount : (List.range 512).countP validNumber = 68 := by
    simpa [Nat.count] using (count_validNumber 8).trans (by decide : _ = 68)
  unfold Obligations.ValidWordCount
  rw [List.filter_congr fun n hn => decodeTableWord_isSome (List.mem_range.mp hn), ← List.countP_eq_length_filter, hcount]

end Sys2Proof.Machine
end

section
/-! PROOFS. The arithmetic of the adder chain: values, carries, and what the operands' form does not change
(40_adders.md R81, R85 to R92). -/

namespace Sys2Proof.Machine

/-! ## Half adder -/

/-- The half adder counts its two bits. -/
theorem halfAdder_count (a b : Bit) :
    2 * (halfAdder a b).carry.toNat + (halfAdder a b).sum.toNat = a.toNat + b.toNat := by
  cases a <;> cases b <;> rfl

/-- Settles O2: the evaluation's outputs are `halfAdder`'s, which count the two inputs. -/
theorem halfAdderArithmeticLaw : Obligations.HalfAdderArithmeticLaw := fun s =>
  ⟨_, exec_ha s, halfAdder_count _ _⟩

/-! ## Ripple-carry adder -/

theorem nBitAdder_comm (a b : Bits) : nBitAdder a b = nBitAdder b a := by
  rw [nBitAdder, nBitAdder, max_comm, ripple_symm]

/-- The carry out is 1 exactly when the total does not fit the width. -/
theorem nBitAdder_carry_iff (a b : Bits) :
    (nBitAdder a b).carry = true ↔ 2 ^ max a.length b.length ≤ uint a + uint b := by
  have hval := nBitAdder_value a b
  have hlt := uint_lt (nBitAdder a b).sum
  rw [nBitAdder_sum_length] at hlt
  cases hc : (nBitAdder a b).carry <;> simp only [hc, Bool.toNat_false, Bool.toNat_true] at hval <;> simp <;> omega

/-- The adder's outputs are fixed by its width and the value they carry. -/
theorem nBitAdder_eq_of_value {a b v : Bits} (hlen : v.length = max a.length b.length)
    (h : uint v = uint a + uint b) : nBitAdder a b = { sum := v, carry := false } := by
  have hlt := uint_lt v
  have hsum : (nBitAdder a b).sum = v := by
    refine uint_inj (by rw [nBitAdder_sum_length, hlen]) ?_
    rw [nBitAdder_uint_sum, ← h, Nat.mod_eq_of_lt (hlen ▸ hlt)]
  have hcarry : (nBitAdder a b).carry = false := by
    rw [← Bool.not_eq_true, nBitAdder_carry_iff, ← h, ← hlen]
    omega
  rw [← hsum, ← hcarry]

theorem nBitAdder_nil_right (v : Bits) : nBitAdder v [] = { sum := v, carry := false } :=
  nBitAdder_eq_of_value (by simp) (by simp)

theorem nBitAdder_nil_left (v : Bits) : nBitAdder [] v = { sum := v, carry := false } := by
  rw [nBitAdder_comm, nBitAdder_nil_right]

/-- Settles O6: an empty operand adds no value and no width. -/
theorem adderEmptyOperands : Obligations.AdderEmptyOperands := by
  refine fun s v => ⟨?_, ?_⟩
  · rw [exec_add, nBitAdder_nil_right]
    rfl
  · rw [exec_add, nBitAdder_nil_left]
    rfl

/-- A sum bit follows from the operands' bits up to its position. -/
theorem bitAt_nBitAdder_congr {a b a' b' : Bits} {i : Nat}
    (h : ∀ j ≤ i, bitAt a j = bitAt a' j ∧ bitAt b j = bitAt b' j)
    (hi : i < max a.length b.length) (hi' : i < max a'.length b'.length) :
    bitAt (nBitAdder a b).sum i = bitAt (nBitAdder a' b').sum i := by
  have hcarry : ripple a b i = ripple a' b' i := ripple_congr fun j hj => h j hj.le
  obtain ⟨ha, hb⟩ := h i le_rfl
  rw [nBitAdder, nBitAdder, bitAt_ripple_sum hi, bitAt_ripple_sum hi', ha, hb, hcarry]

/-- Settles O7: the loop has read only the positions up to `i` when it forms sum bit `i`. -/
theorem adderLowBitsIgnoreHighBits : Obligations.AdderLowBitsIgnoreHighBits := by
  refine fun s t k h => ⟨_, _, exec_add s, exec_add t, fun i hi hs ht => ?_⟩
  refine bitAt_nBitAdder_congr (fun j hj => h j (by omega)) ?_ ?_
  · exact (nBitAdder_sum_length _ _) ▸ hs
  · exact (nBitAdder_sum_length _ _) ▸ ht

/-- Settles O8: the value law of the loop, read as wrap-around and as lost carry. -/
theorem adderArithmeticLaw : Obligations.AdderArithmeticLaw := fun s =>
  ⟨_, exec_add s, nBitAdder_sum_length _ _, nBitAdder_value _ _, nBitAdder_uint_sum _ _, nBitAdder_carry_iff _ _⟩

/-- Settles O9: every full adder of the chain is symmetric in its operands. -/
theorem adderIsCommutative : Obligations.AdderIsCommutative := by
  refine fun s => ⟨_, exec_add s, ?_⟩
  rw [exec_add, nBitAdder_comm]
  rfl

/-! ## Signed reading -/

/-- The two readings differ by whole turns of the width. -/
theorem uint_modEq_sint (v : Bits) : uint v ≡ sint v [ZMOD 2 ^ v.length] := by
  refine (Int.modEq_iff_dvd.mpr ⟨(bitAt v (v.length - 1)).toNat, ?_⟩).symm
  rw [sint]
  ring

theorem uint_modEq_sint_zext {v : Bits} {n : Nat} (h : v.length ≤ n) : uint v ≡ sint (zext n v) [ZMOD 2 ^ n] := by
  have hmod := uint_modEq_sint (zext n v)
  rwa [zext_length, uint_zext_of_le h] at hmod

/-- The most significant bit has half the weight of the width. -/
theorem msb_iff {v : Bits} (h : 1 ≤ v.length) :
    bitAt v (v.length - 1) = true ↔ 2 ^ (v.length - 1) ≤ uint v := by
  rcases List.eq_nil_or_concat v with rfl | ⟨w, b, rfl⟩
  · simp at h
  · have hlt := uint_lt w
    rw [List.concat_eq_append, uint_snoc, List.length_append, List.length_singleton, Nat.add_sub_cancel,
      bitAt_append_length]
    cases b with
    | false => simp [hlt]
    | true => simp

/-- A signed reading lies in the range of its width (00_scope.md R8). -/
theorem sint_bounds {v : Bits} {n : Nat} (hlen : v.length = n) (h : 1 ≤ n) :
    -(2 ^ (n - 1) : Int) ≤ sint v ∧ sint v < 2 ^ (n - 1) := by
  subst hlen
  have hmsb := msb_iff h
  have hlt := uint_lt v
  have hturn : 2 ^ v.length = 2 * 2 ^ (v.length - 1) := by rw [← pow_succ', Nat.sub_add_cancel h]
  have hturnInt : (2 ^ v.length : Int) = 2 * 2 ^ (v.length - 1) := by exact_mod_cast hturn
  rw [hturn] at hlt
  zify at hmsb hlt
  rw [sint, hturnInt]
  cases hb : bitAt v (v.length - 1) <;> simp [hb] at hmsb ⊢ <;> omega

/-- The signed reading is negative exactly when the last bit is set. -/
theorem sint_neg_iff (v : Bits) : sint v < 0 ↔ bitAt v (v.length - 1) = true := by
  have hlt := uint_lt v
  zify at hlt
  rw [sint]
  cases bitAt v (v.length - 1)
  · simp
  · simp
    omega

/-- The total differs from the sum's value by the turn that the carry stands for. -/
theorem nBitAdder_modEq (a b : Bits) :
    (uint a + uint b : Int) ≡ uint (nBitAdder a b).sum [ZMOD 2 ^ max a.length b.length] := by
  have hval := nBitAdder_value a b
  zify at hval
  refine (Int.modEq_iff_dvd.mpr ⟨(nBitAdder a b).carry.toNat, ?_⟩).symm
  rw [← hval]
  ring

/-- Settles O10: value and signed reading agree modulo a turn, for the sum and for each padded operand. -/
theorem adderSignedReading : Obligations.AdderSignedReading := by
  intro s a b n hn
  have hlen : (nBitAdder a b).sum.length = n := nBitAdder_sum_length a b
  obtain ⟨hlo, hhi⟩ := sint_bounds hlen hn
  have hsum := uint_modEq_sint (nBitAdder a b).sum
  rw [hlen] at hsum
  have hwrap : sint (zext n a) + sint (zext n b) ≡ sint (nBitAdder a b).sum [ZMOD 2 ^ n] := calc
    _ ≡ uint a + uint b [ZMOD 2 ^ n] :=
      ((uint_modEq_sint_zext (le_max_left _ _)).add (uint_modEq_sint_zext (le_max_right _ _))).symm
    _ ≡ uint (nBitAdder a b).sum [ZMOD 2 ^ n] := nBitAdder_modEq a b
    _ ≡ sint (nBitAdder a b).sum [ZMOD 2 ^ n] := hsum
  exact ⟨_, exec_add s, hlo, hhi, hwrap.dvd⟩

/-! ## Incrementer -/

/-- Settles O11: the incrementer is the adder on `(a, [1])`, and `[1]` has width 1. -/
theorem incrementerIsAdderWithOne : Obligations.IncrementerIsAdderWithOne := by
  refine ⟨by decide, by decide, fun s => ⟨nBitAdder s.inputs.inc.a [true], ?_, ?_, nBitAdder_sum_length _ _⟩⟩
  · exact exec_add _
  · exact exec_inc s

/-- Settles O13: the adder's value law with `uint [1] = 1`. -/
theorem incrementerArithmeticLaw : Obligations.IncrementerArithmeticLaw := fun s =>
  ⟨_, exec_inc s, incrementer_result_length _, incrementer_value _⟩

/-! ## Vectors and gates -/

/-- Settles O35: one more bit at the front shifts every other position up by one. -/
theorem placeValue : Obligations.PlaceValue := by
  intro v
  induction v with
  | nil => rfl
  | cons b v ih =>
    rw [uint, ih, List.length_cons, Finset.sum_range_succ', Finset.mul_sum, add_comm]
    simp only [bitAt_cons_succ, bitAt_cons_zero, pow_succ, pow_zero, mul_one]
    exact congrArg (· + b.toNat) (Finset.sum_congr rfl fun i _ => by ring)

/-- Settles O37: the four gates as Boolean operations, exclusive or as inequality. -/
theorem gateTruthTables : Obligations.GateTruthTables := fun a b =>
  ⟨gateNot_eq a, gateAnd_eq a b, gateOr_eq a b, by rw [gateXor_eq, bne_iff_ne]⟩

end Sys2Proof.Machine
end

section
/-! PROOFS. The conditioner, the flags and the widths of every ALU evaluation (41_alu.md sections 1, 4, 6 and 7,
20_memory.md R40). -/

namespace Sys2Proof.Machine

/-! ## Conditioner -/

/-- Settles O16: the four control pairs, and the inversion of a pad bit, which is 0 before it. -/
theorem conditionerZeroesBeforeInverting : Obligations.ConditionerZeroesBeforeInverting := by
  refine fun v n => ⟨condition_pass v n, condition_invert v n, condition_zero v n, condition_one v n, fun i hv hn => ?_⟩
  rw [bitAt_condition v false true hn, bitAt_of_length_le hv]
  rfl

/-! ## Flags -/

theorem zeroFlag_eq_true_iff_zeros {v : Bits} : zeroFlag v = true ↔ v = zeros v.length := by
  rw [zeroFlag_eq_true, zeros, List.eq_replicate_iff]
  exact ⟨fun h => ⟨rfl, h⟩, fun h => h.2⟩

/-- The last bit of a vector of zeros is no 1. -/
theorem zeroFlag_negFlag_exclusive (v : Bits) : ¬ (zeroFlag v = true ∧ negFlag v = true) := by
  rintro ⟨hz, hn⟩
  have hlast : true ∈ v := List.mem_of_getLast? (negFlag_eq_true.mp hn)
  exact absurd (zeroFlag_eq_true.mp hz true hlast) (by decide)

/-- Settles O22: the flags of any ALU operation are the flag processor's of a result of the working width. -/
theorem flagsAreExclusive : Obligations.FlagsAreExclusive := by
  intro i s hi
  obtain ⟨c, hc⟩ := expand_of_unitOf_alu hi
  exact aluAnswers_of_expand hc ⟨alu_out_length _ _ _, zeroFlag_eq_true_iff_zeros, zeroFlag_negFlag_exclusive _⟩

theorem alu_nil_nil (c : Ctrl) : alu [] [] c = { out := [], zr := true, ng := false } := by
  have hout : (alu [] [] c).out = [] := List.eq_nil_of_length_eq_zero (alu_out_length [] [] c)
  rw [alu_flags, hout]
  rfl

/-- Settles O23: a result of width 0 is empty, and its flags are those of the empty vector. -/
theorem aluAtWidthZero : Obligations.AluAtWidthZero := by
  intro i s hi hx hy
  obtain ⟨c, hc⟩ := expand_of_unitOf_alu hi
  rw [exec_of_expand hc, hx, hy, alu_nil_nil]
  rfl

/-! ## Padding -/

theorem max_length_zext (n : Nat) (v w : Bits) : max (zext n v).length (zext n w).length = n := by
  rw [zext_length, zext_length, max_self]

theorem nBitAdder_zext (a b : Bits) :
    nBitAdder (zext (max a.length b.length) a) (zext (max a.length b.length) b) = nBitAdder a b := by
  rw [nBitAdder, max_length_zext]
  exact ripple_congr fun i _ => ⟨bitAt_zext_of_le (le_max_left _ _) i, bitAt_zext_of_le (le_max_right _ _) i⟩

theorem condition_zext {v : Bits} {n : Nat} (h : v.length ≤ n) (z neg : Bit) :
    condition (zext n v) z neg n = condition v z neg n :=
  condition_congr z neg n fun i _ => bitAt_zext_of_le h i

theorem alu_zext (x y : Bits) (c : Ctrl) :
    alu (zext (max x.length y.length) x) (zext (max x.length y.length) y) c = alu x y c := by
  rw [alu_flags, alu_out, max_length_zext, condition_zext (le_max_left _ _), condition_zext (le_max_right _ _),
    ← alu_out, ← alu_flags]

/-- Settles O36: the units read their operands bit by bit, and padding changes no bit. -/
theorem zeroExtensionIsInvisible : Obligations.ZeroExtensionIsInvisible := by
  refine fun s => ⟨⟨_, exec_add s, ?_⟩, fun i hi => ?_⟩
  · rw [exec_add, nBitAdder_zext]
    rfl
  · obtain ⟨c, hc⟩ := expand_of_unitOf_alu hi
    exact aluAnswers_of_expand hc (aluAnswers_of_expand hc (alu_zext _ _ c))

/-! ## The 16-bit wrapper -/

theorem alu16_out (p : Wrap16Flags) (x y : Bits) (c : Ctrl) : (alu16 p x y c).out = zext 16 (alu x y c).out := by
  cases p <;> rfl

theorem alu16_recomputed (x y : Bits) (c : Ctrl) : alu16 .recomputed x y c = withFlags (zext 16 (alu x y c).out) := rfl

/-- At width 16 nothing is padded or cut, so the recomputed flags are the ALU's. -/
theorem alu16_of_width (p : Wrap16Flags) {x y : Bits} (h : max x.length y.length = 16) (c : Ctrl) :
    alu16 p x y c = alu x y c := by
  have hlen : (alu x y c).out.length = 16 := (alu_out_length x y c).trans h
  have hout : zext 16 (alu x y c).out = (alu x y c).out := by rw [← hlen, zext_self]
  cases p with
  | general => simp only [alu16, hout]
  | recomputed => rw [alu16_recomputed, hout, ← alu_flags]

/-- Settles O43: either reading, and so the open one, pads or cuts the general result. -/
theorem wrapperPadsOrTruncates : Obligations.WrapperPadsOrTruncates := by
  refine fun x y c => ⟨fun p => ?_, alu16_out _ x y c⟩
  rw [alu16_out]
  exact ⟨zext_length _ _, fun i hi => by rw [bitAt_zext, if_pos hi]⟩

/-- Settles O44: the recomputed flags read positions 0 to 15 of the general result. -/
theorem wrapperFlagReadings : Obligations.WrapperFlagReadings := by
  refine fun x y c => ⟨rfl, rfl, ?_, ?_, fun h p => alu16_of_width p h c⟩
  · rw [alu16_recomputed]
    refine zeroFlag_eq_true_iff_bitAt.trans ?_
    rw [zext_length]
    exact forall₂_congr fun i hi => by rw [bitAt_zext, if_pos hi]
  · rw [alu16_recomputed]
    refine (negFlag_of_pos (v := zext 16 (alu x y c).out) (by rw [zext_length]; decide)).trans ?_
    rw [zext_length, bitAt_zext]
    rfl

end Sys2Proof.Machine
end

section
/-! PROOFS. The presets: the value of an addition under any control word, the bitwise words, the sign of a difference
(30_encoding.md section 4, 41_alu.md section 5). -/

namespace Sys2Proof.Machine

theorem aluAnswers_mono {i : Instr} {s : State} {P Q : AluOut → Prop} (h : AluAnswers i s P) (hPQ : ∀ o, P o → Q o) :
    AluAnswers i s Q := by
  obtain ⟨o, ho, hP⟩ := h
  exact ⟨o, ho, hPQ o hP⟩

@[simp] theorem zeros_length (n : Nat) : (zeros n).length = n := List.length_replicate

@[simp] theorem ones_length (n : Nat) : (ones n).length = n := List.length_replicate

/-! ## The value of an addition, modulo the width -/

/-- What a negation stage makes of a value: inverting every bit of `v` leaves `-1 - v`, modulo the width. -/
def invertedIf (neg : Bit) (k : Int) : Int := if neg then -1 - k else k

/-- The value a conditioned operand stands for. -/
def conditionValue (v : Bits) (z neg : Bit) : Int := invertedIf neg (if z then 0 else uint v)

/-- The value a control word with `f` set computes. -/
def additionValue (x y : Bits) (c : Ctrl) : Int :=
  invertedIf c.no (conditionValue x c.zx c.nx + conditionValue y c.zy c.ny)

@[simp] theorem invertedIf_false (k : Int) : invertedIf false k = k := rfl
@[simp] theorem invertedIf_true (k : Int) : invertedIf true k = -1 - k := rfl

/-! The four control pairs of an operand (41_alu.md R112). -/

@[simp] theorem conditionValue_pass (v : Bits) : conditionValue v false false = uint v := rfl
@[simp] theorem conditionValue_invert (v : Bits) : conditionValue v false true = -1 - uint v := rfl
@[simp] theorem conditionValue_zero (v : Bits) : conditionValue v true false = 0 := rfl
@[simp] theorem conditionValue_one (v : Bits) : conditionValue v true true = -1 := rfl

theorem invertedIf_modEq {m k l : Int} (neg : Bit) (h : k ≡ l [ZMOD m]) :
    invertedIf neg k ≡ invertedIf neg l [ZMOD m] := by
  cases neg with
  | false => exact h
  | true => exact Int.ModEq.sub_left (-1) h

theorem uint_negateOut_modEq (v : Bits) (no : Bit) :
    uint (negateOut v no) ≡ invertedIf no (uint v) [ZMOD 2 ^ v.length] := by
  cases no with
  | false => rfl
  | true =>
    have hval := uint_not v
    zify at hval
    rw [negateOut_true, invertedIf_true, Int.modEq_iff_dvd]
    exact ⟨-1, by linarith⟩

/-- Inversion is a stage of its own: the conditioner is zeroing and then the negator. -/
theorem condition_eq_negateOut (v : Bits) (z neg : Bit) (n : Nat) :
    condition v z neg n = negateOut (if z then zeros n else zext n v) neg := by
  cases z <;> cases neg
  · exact condition_pass v n
  · exact (condition_invert v n).trans (negateOut_true _).symm
  · exact condition_zero v n
  · rw [condition_one, if_pos rfl, negateOut_true, zeros, ones, List.map_replicate]
    rfl

theorem uint_condition_modEq {v : Bits} {n : Nat} (h : v.length ≤ n) (z neg : Bit) :
    uint (condition v z neg n) ≡ conditionValue v z neg [ZMOD 2 ^ n] := by
  rw [condition_eq_negateOut]
  cases z with
  | false => simpa [conditionValue, uint_zext_of_le h] using uint_negateOut_modEq (zext n v) neg
  | true => simpa [conditionValue] using uint_negateOut_modEq (zeros n) neg

/-- A control word with `f` set computes its value modulo the working width. -/
theorem uint_alu_modEq (x y : Bits) {c : Ctrl} (hf : c.f = true) :
    uint (alu x y c).out ≡ additionValue x y c [ZMOD 2 ^ max x.length y.length] := by
  set n := max x.length y.length with hn
  have hadd := nBitAdder_modEq (condition x c.zx c.nx n) (condition y c.zy c.ny n)
  have hneg := uint_negateOut_modEq (functionUnit (condition x c.zx c.nx n) (condition y c.zy c.ny n) true n) c.no
  rw [functionUnit_length, functionUnit_add (condition_length _ _ _ _) (condition_length _ _ _ _)] at hneg
  rw [condition_length, condition_length, max_self] at hadd
  rw [alu_out, ← hn, hf, functionUnit_add (condition_length _ _ _ _) (condition_length _ _ _ _)]
  calc _ ≡ invertedIf c.no (uint (nBitAdder (condition x c.zx c.nx n) (condition y c.zy c.ny n)).sum) [ZMOD 2 ^ n] := hneg
    _ ≡ additionValue x y c [ZMOD 2 ^ n] := invertedIf_modEq _ <| hadd.symm.trans <|
      (uint_condition_modEq (le_max_left _ _) _ _).add (uint_condition_modEq (le_max_right _ _) _ _)

/-- A result of the working width whose value is `k` modulo that width. -/
def HasValue (n : Nat) (k : Int) (o : AluOut) : Prop := o.out.length = n ∧ uint o.out ≡ k [ZMOD 2 ^ n]

theorem hasValue_alu (x y : Bits) {c : Ctrl} (hf : c.f = true) :
    HasValue (max x.length y.length) (additionValue x y c) (alu x y c) :=
  ⟨alu_out_length x y c, uint_alu_modEq x y hf⟩

/-- An operation whose control word adds answers with the value that word computes. -/
theorem aluAnswers_value {i : Instr} {c : Ctrl} {k : Int} {s : State} (h : i.expand = .alu c) (hf : c.f = true)
    (hk : additionValue s.inputs.alu.x s.inputs.alu.y c = k) :
    AluAnswers i s (HasValue (max s.inputs.alu.x.length s.inputs.alu.y.length) k) :=
  aluAnswers_of_expand h (hk ▸ hasValue_alu _ _ hf)

/-- Width and value modulo that width determine the result. -/
theorem HasValue.out_eq {n : Nat} {k : Int} {o : AluOut} (h : HasValue n k o) {v : Bits} (hlen : v.length = n)
    (hv : uint v ≡ k [ZMOD 2 ^ n]) : o.out = v := by
  obtain ⟨holen, hmod⟩ := h
  have hnat : uint o.out ≡ uint v [MOD 2 ^ n] := by
    rw [← Int.natCast_modEq_iff]
    exact_mod_cast hmod.trans hv.symm
  exact uint_inj (holen.trans hlen.symm) (hnat.eq_of_lt_of_lt (holen ▸ uint_lt _) (hlen ▸ uint_lt _))

/-- A value that is a natural number, reduced. -/
theorem HasValue.uint_eq_mod {n k : Nat} {o : AluOut} (h : HasValue n k o) : uint o.out = k % 2 ^ n := by
  obtain ⟨hlen, hmod⟩ := h
  have hnat : uint o.out ≡ k [MOD 2 ^ n] := by
    rw [← Int.natCast_modEq_iff]
    exact_mod_cast hmod
  exact (Nat.mod_eq_of_lt (hlen ▸ uint_lt o.out)).symm.trans hnat

/-- A difference, given back its subtrahend, is the minuend. -/
theorem HasValue.uint_add_mod {n p q : Nat} {o : AluOut} (h : HasValue n (p - q) o) :
    (uint o.out + q) % 2 ^ n = p % 2 ^ n := by
  have hmod : (uint o.out + q : Int) ≡ p [ZMOD 2 ^ n] := by simpa using h.2.add_right (q : Int)
  have hnat : uint o.out + q ≡ p [MOD 2 ^ n] := by
    rw [← Int.natCast_modEq_iff]
    exact_mod_cast hmod
  exact hnat

theorem aluAnswers_uint_eq_mod {i : Instr} {c : Ctrl} {k : Nat} {s : State} (h : i.expand = .alu c) (hf : c.f = true)
    (hk : additionValue s.inputs.alu.x s.inputs.alu.y c = k) :
    AluAnswers i s fun o => o.out.length = max s.inputs.alu.x.length s.inputs.alu.y.length ∧
      uint o.out = k % 2 ^ max s.inputs.alu.x.length s.inputs.alu.y.length :=
  aluAnswers_mono (aluAnswers_value h hf hk) fun _ ho => ⟨ho.1, ho.uint_eq_mod⟩

theorem aluAnswers_uint_add_mod {i : Instr} {c : Ctrl} {p q : Nat} {s : State} (h : i.expand = .alu c)
    (hf : c.f = true) (hk : additionValue s.inputs.alu.x s.inputs.alu.y c = p - q) :
    AluAnswers i s fun o => o.out.length = max s.inputs.alu.x.length s.inputs.alu.y.length ∧
      (uint o.out + q) % 2 ^ max s.inputs.alu.x.length s.inputs.alu.y.length =
        p % 2 ^ max s.inputs.alu.x.length s.inputs.alu.y.length :=
  aluAnswers_mono (aluAnswers_value h hf hk) fun _ ho => ⟨ho.1, ho.uint_add_mod⟩

/-! ## The values of the presets that add (30_encoding.md R76) -/

section
variable (x y : Bits)

theorem additionValue_zero : additionValue x y ctrlZero = (0 : Nat) := by
  simp [additionValue, ctrlZero, Ctrl.unpack]
theorem additionValue_one : additionValue x y ctrlOne = (1 : Nat) := by
  simp [additionValue, ctrlOne, Ctrl.unpack]
theorem additionValue_neg1 : additionValue x y ctrlNeg1 = -1 := by
  simp [additionValue, ctrlNeg1, Ctrl.unpack]
theorem additionValue_negx : additionValue x y ctrlNegx = (0 : Nat) - uint x := by
  simp [additionValue, ctrlNegx, Ctrl.unpack]
theorem additionValue_negy : additionValue x y ctrlNegy = (0 : Nat) - uint y := by
  simp [additionValue, ctrlNegy, Ctrl.unpack]
theorem additionValue_incx : additionValue x y ctrlIncx = (uint x + 1 : Nat) := by
  simp [additionValue, ctrlIncx, Ctrl.unpack]
theorem additionValue_incy : additionValue x y ctrlIncy = (uint y + 1 : Nat) := by
  simp [additionValue, ctrlIncy, Ctrl.unpack]
theorem additionValue_decx : additionValue x y ctrlDecx = uint x - (1 : Nat) := by
  simp [additionValue, ctrlDecx, Ctrl.unpack]
  ring
theorem additionValue_decy : additionValue x y ctrlDecy = uint y - (1 : Nat) := by
  simp [additionValue, ctrlDecy, Ctrl.unpack]
  ring
theorem additionValue_add : additionValue x y ctrlAdd = (uint x + uint y : Nat) := by
  simp [additionValue, ctrlAdd, Ctrl.unpack]
theorem additionValue_subxy : additionValue x y ctrlSubxy = uint x - uint y := by
  simp [additionValue, ctrlSubxy, Ctrl.unpack]
  ring
theorem additionValue_subyx : additionValue x y ctrlSubyx = uint y - uint x := by
  simp [additionValue, ctrlSubyx, Ctrl.unpack]
  ring

end

/-- Settles O26: the values 0, 1 and -1, the last being that of all ones. -/
theorem presetConstants : Obligations.PresetConstants := by
  refine fun s => ⟨?_, ?_, ?_⟩
  · refine aluAnswers_mono (aluAnswers_value rfl rfl (additionValue_zero _ _)) fun o h => ?_
    exact h.out_eq (zeros_length _) (by rw [uint_zeros])
  · exact aluAnswers_uint_eq_mod rfl rfl (additionValue_one _ _)
  · refine aluAnswers_mono (aluAnswers_value rfl rfl (additionValue_neg1 _ _)) fun o h => ?_
    refine h.out_eq (ones_length _) ?_
    rw [← condition_one []]
    exact uint_condition_modEq (Nat.zero_le _) true true

/-- Settles O28: the value 0 less the operand's. -/
theorem presetNegations : Obligations.PresetNegations := fun _ =>
  ⟨aluAnswers_uint_add_mod rfl rfl (additionValue_negx _ _),
    aluAnswers_uint_add_mod rfl rfl (additionValue_negy _ _)⟩

/-- Settles O29: the operand's value and 1, added or subtracted. -/
theorem presetIncrementsAndDecrements : Obligations.PresetIncrementsAndDecrements := fun _ =>
  ⟨aluAnswers_uint_eq_mod rfl rfl (additionValue_incx _ _),
    aluAnswers_uint_eq_mod rfl rfl (additionValue_incy _ _),
    aluAnswers_uint_add_mod rfl rfl (additionValue_decx _ _),
    aluAnswers_uint_add_mod rfl rfl (additionValue_decy _ _)⟩

/-- Settles O30: the operands' values, added or subtracted. -/
theorem presetSumsAndDifferences : Obligations.PresetSumsAndDifferences := fun _ =>
  ⟨aluAnswers_uint_eq_mod rfl rfl (additionValue_add _ _),
    aluAnswers_uint_add_mod rfl rfl (additionValue_subxy _ _),
    aluAnswers_uint_add_mod rfl rfl (additionValue_subyx _ _)⟩

/-! ## The presets that AND -/

/-- With the y side conditioned to all ones, the x side reaches the negator. -/
theorem alu_out_and_ones_right (x y : Bits) (nx no : Bit) :
    (alu x y ⟨false, nx, true, true, false, no⟩).out = negateOut (condition x false nx (max x.length y.length)) no := by
  rw [alu_out, condition_one, functionUnit_and_ones (condition_length _ _ _ _)]

theorem alu_out_and_ones_left (x y : Bits) (ny no : Bit) :
    (alu x y ⟨true, true, false, ny, false, no⟩).out = negateOut (condition y false ny (max x.length y.length)) no := by
  rw [alu_out, condition_one, functionUnit_and_comm, functionUnit_and_ones (condition_length _ _ _ _)]

/-- Settles O27: one operand against all ones, negated or not. -/
theorem presetOperands : Obligations.PresetOperands := by
  refine fun s => ⟨?_, ?_, ?_, ?_⟩ <;> refine aluAnswers_of_expand rfl ?_
  · exact (alu_out_and_ones_right _ _ false false).trans (condition_pass _ _)
  · exact (alu_out_and_ones_left _ _ false false).trans (condition_pass _ _)
  · refine (alu_out_and_ones_right _ _ false true).trans ?_
    rw [condition_pass, negateOut_true]
  · refine (alu_out_and_ones_left _ _ false true).trans ?_
    rw [condition_pass, negateOut_true]

/-- A bit of the AND path, with all its stages. -/
theorem bitAt_alu_out_and {x y : Bits} {c : Ctrl} {i : Nat} (hf : c.f = false) (h : i < max x.length y.length) :
    bitAt (alu x y c).out i = (c.no ^^ ((c.nx ^^ (!c.zx && bitAt x i)) && (c.ny ^^ (!c.zy && bitAt y i)))) := by
  rw [bitAt_alu_out c h, hf, bitAt_functionUnit_and _ _ h, bitAt_condition _ _ _ h, bitAt_condition _ _ _ h]

/-- Settles O31: AND as it stands, OR as the inverse of the AND of the inverses. -/
theorem presetBitwise : Obligations.PresetBitwise := by
  refine fun s => ⟨aluAnswers_of_expand rfl ⟨alu_out_length _ _ _, fun i hi => ?_⟩,
    aluAnswers_of_expand rfl ⟨alu_out_length _ _ _, fun i hi => ?_⟩⟩
  · rw [bitAt_alu_out_and rfl hi]
    simp [ctrlAnd, Ctrl.unpack]
  · rw [bitAt_alu_out_and rfl hi]
    simp [ctrlOr, Ctrl.unpack]

/-! ## Width 1 and the sign of a difference -/

/-- Settles O32: the only vector of width 1 and value 1 is `[1]`, whose last bit is set. -/
theorem constantOneAtWidthOne : Obligations.ConstantOneAtWidthOne := by
  intro s hn
  have hval := hasValue_alu s.inputs.alu.x s.inputs.alu.y (c := ctrlOne) rfl
  rw [additionValue_one, hn] at hval
  have hout : (alu s.inputs.alu.x s.inputs.alu.y ctrlOne).out = [true] := hval.out_eq rfl rfl
  rw [exec_of_expand rfl, alu_flags, hout]
  rfl

/-- Two numbers of a signed range of half-width `m`: their difference, wrapped into the range, has the sign of the comparison
exactly when nothing was wrapped, since one turn otherwise moves it across 0. -/
theorem wrapped_sign_iff {m p q r : Int} (hp : -m ≤ p ∧ p < m) (hq : -m ≤ q ∧ q < m) (hr : -m ≤ r ∧ r < m)
    (hwrap : r ≡ p - q [ZMOD 2 * m]) : (r < 0 ↔ p < q) ↔ -m ≤ p - q ∧ p - q < m := by
  obtain ⟨k, hk⟩ := hwrap.dvd
  have hlow : -2 < k := by nlinarith
  have hhigh : k < 2 := by nlinarith
  interval_cases k <;> omega

/-- Settles O33: the result and the difference of the signed readings are congruent, and both operands and the result lie in
the signed range of the working width. -/
theorem signOfDifference : Obligations.SignOfDifference := by
  intro s n p q hn
  refine aluAnswers_of_expand rfl ?_
  have hval := hasValue_alu s.inputs.alu.x s.inputs.alu.y (c := ctrlSubxy) rfl
  have hflags := alu_flags s.inputs.alu.x s.inputs.alu.y ctrlSubxy
  rw [additionValue_subxy] at hval
  generalize alu s.inputs.alu.x s.inputs.alu.y ctrlSubxy = o at hval hflags ⊢
  obtain ⟨hlen, hmod⟩ : HasValue n (uint s.inputs.alu.x - uint s.inputs.alu.y) o := hval
  have hng : o.ng = true ↔ sint o.out < 0 := by
    rw [sint_neg_iff, hflags, ← negFlag_of_pos (hlen ▸ hn)]
    rfl
  have hturn : (2 ^ n : Int) = 2 * 2 ^ (n - 1) := by rw [← pow_succ', Nat.sub_add_cancel hn]
  have hwrap : sint o.out ≡ p - q [ZMOD 2 * 2 ^ (n - 1)] := by
    rw [← hturn]
    calc sint o.out ≡ uint o.out [ZMOD 2 ^ n] := hlen ▸ (uint_modEq_sint o.out).symm
      _ ≡ uint s.inputs.alu.x - uint s.inputs.alu.y [ZMOD 2 ^ n] := hmod
      _ ≡ p - q [ZMOD 2 ^ n] :=
        (uint_modEq_sint_zext (le_max_left _ _)).sub (uint_modEq_sint_zext (le_max_right _ _))
  refine ⟨hng, ?_⟩
  rw [hng]
  exact wrapped_sign_iff (sint_bounds (zext_length _ _) hn) (sint_bounds (zext_length _ _) hn) (sint_bounds hlen hn) hwrap

end Sys2Proof.Machine
end

section
/-! PROOFS. What one evaluation leaves alone, and that evaluations of different units do not meet (10_state.md sections 1, 3
and 4). -/

namespace Sys2Proof.Machine

/-- Settles O39: each of the five units replaces its own outputs. -/
theorem evaluationFrame : Obligations.EvaluationFrame := by
  intro i s t h
  rcases exec_cases h with ⟨hu, rfl⟩ | ⟨hu, rfl⟩ | ⟨hu, rfl⟩ | ⟨hu, rfl⟩ | ⟨hu, c, -, rfl⟩ <;> simp [hu]

/-- The outputs of a unit that is not evaluated, as the frame leaves them. -/
theorem outputValues_evaluated_of_ne {i : Instr} {u : UnitName} (h : i.unitOf ≠ u) (s : State) :
    outputValues u (evaluated i s) = outputValues u s.outputs := by
  obtain ⟨-, -, -, -, hha, hfa, hadd, hinc, halu⟩ := evaluationFrame i s _ (exec_eq i s)
  rw [State.setOutputs_outputs] at hha hfa hadd hinc halu
  cases u with
  | ha => simp only [outputValues, hha h]
  | fa => simp only [outputValues, hfa h]
  | add => simp only [outputValues, hadd h]
  | inc => simp only [outputValues, hinc h]
  | alu => simp only [outputValues, halu h]

/-- The output levels are those of the five units. -/
theorem outputs_ext {o r : Outputs} (h : ∀ u, outputValues u o = outputValues u r) : o = r := by
  obtain ⟨⟨_, _⟩, ⟨_, _⟩, ⟨_, _⟩, ⟨_, _⟩, ⟨_, _, _⟩⟩ := o
  obtain ⟨⟨_, _⟩, ⟨_, _⟩, ⟨_, _⟩, ⟨_, _⟩, ⟨_, _, _⟩⟩ := r
  have hha := h .ha
  have hfa := h .fa
  have hadd := h .add
  have hinc := h .inc
  have halu := h .alu
  simp_all [outputValues]

/-- Another unit's evaluation before does not reach a unit's evaluation. -/
theorem outputValues_evaluated_setOutputs (i : Instr) (s : State) (o : Outputs) :
    outputValues i.unitOf (evaluated i (s.setOutputs o)) = outputValues i.unitOf (evaluated i s) :=
  outputValues_evaluated_congr rfl

theorem evaluated_comm {i j : Instr} (h : i.unitOf ≠ j.unitOf) (s : State) :
    evaluated j (s.setOutputs (evaluated i s)) = evaluated i (s.setOutputs (evaluated j s)) := by
  refine outputs_ext fun u => ?_
  by_cases hi : i.unitOf = u
  · subst hi
    rw [outputValues_evaluated_of_ne h.symm, outputValues_evaluated_setOutputs, State.setOutputs_outputs]
  by_cases hj : j.unitOf = u
  · subst hj
    rw [outputValues_evaluated_of_ne h, outputValues_evaluated_setOutputs, State.setOutputs_outputs]
  · rw [outputValues_evaluated_of_ne hj, State.setOutputs_outputs, outputValues_evaluated_of_ne hi,
      outputValues_evaluated_of_ne hi, State.setOutputs_outputs, outputValues_evaluated_of_ne hj]

theorem exec_andThen_exec (i j : Instr) (s : State) :
    andThen (exec i s) (exec j) = .next (s.setOutputs (evaluated j (s.setOutputs (evaluated i s)))) := by
  rw [exec_eq, andThen_next, exec_eq]
  rfl

/-- Settles O41: unit by unit, either order leaves the same outputs. -/
theorem evaluationOrderIsInvisible : Obligations.EvaluationOrderIsInvisible := fun i j s h =>
  ⟨_, exec_andThen_exec i j s, by rw [exec_andThen_exec, evaluated_comm h]⟩

/-! ## Reset -/

/-- Settles O58: the reset outputs are outputs the units can have, and there are no names. -/
theorem resetHasInvariant : Obligations.ResetHasInvariant := by
  unfold Obligations.ResetHasInvariant
  decide

theorem evaluated_reset (i : Instr) : evaluated i State.reset = State.reset.outputs := by
  cases i with
  | alu c => exact congrArg State.reset.outputs.setAlu (alu_nil_nil c)
  | _ => rfl

/-- Settles O59: the reset outputs are each unit's answer to the reset inputs, and the empty script has ended. -/
theorem resetIsSettled : Obligations.ResetIsSettled := by
  refine ⟨fun i => ?_, rfl⟩
  rw [exec_eq, evaluated_reset]
  rfl

end Sys2Proof.Machine
end

section
/-! PROOFS. The host's lines: what an operation line needs and does, and what the other lines do
(10_state.md R28, 30_encoding.md R75). -/

namespace Sys2Proof.Machine

/-! ## One rule per kind of line -/

theorem step_of_line {s : State} {st : Stmt} (h : s.script[s.line]? = some st) : step s = runStmt st s := by
  simp only [step, runLine, h]

theorem step_of_script_end {s : State} (h : s.script[s.line]? = none) : step s = .next s := by
  simp only [step, runLine, h]

theorem step_eval {s : State} {w : OpWord} {args : List Operand} {outs : List (Option Nat)}
    (h : s.script[s.line]? = some (.eval w args outs)) : step s = runEval w args outs s := step_of_line h

theorem step_assign {s : State} {n : Nat} {v : Operand} {x : Value} (h : s.script[s.line]? = some (.assign n v))
    (hx : resolve s.names v = .ok x) : step s = .next (s.setNames (bindName s.names n x)).nextLine := by
  rw [step_of_line h, runStmt, runAssign, hx, orRefuse_ok]

theorem step_branch_not_taken {s : State} {negated : Bool} {cond l : Nat}
    (h : s.script[s.line]? = some (.branch negated cond l)) (hb : lookup s.names cond = some (.bit negated)) :
    step s = .next s.nextLine := by
  simp [step_of_line h, runStmt, runBranch, hb]

theorem step_branch_taken {s : State} {negated b : Bool} {cond l : Nat}
    (h : s.script[s.line]? = some (.branch negated cond l)) (hb : lookup s.names cond = some (.bit b))
    (hne : b ≠ negated) : step s = runGoto l s := by
  simp [step_of_line h, runStmt, runBranch, hb, hne]

theorem runGoto_of_findLabel {l n : Nat} {s : State} (h : findLabel l s.script 0 = some n) :
    runGoto l s = .next (s.setLine n) := by
  simp only [runGoto, h]

theorem runEval_of_op {w : OpWord} {args : List Operand} {outs : List (Option Nat)} {i : Instr} {vs : List Value}
    {p : Inputs} {s t : State} {e : List (Nat × Value)} (hw : decode w = .op i) (hvs : resolveAll s.names args = .ok vs)
    (hp : drive i.unitOf vs s.inputs = .ok p) (ht : exec i (s.setInputs p) = .next t)
    (he : bindOutputs outs (outputValues i.unitOf t.outputs) t.names = .ok e) :
    runEval w args outs s = .next (t.setNames e).nextLine := by
  simp only [runEval, hw, hvs, hp, ht, he, orRefuse_ok, andThen_next]

theorem runEval_of_invalid {w : OpWord} {why : Invalid} (args : List Operand) (outs : List (Option Nat)) (s : State)
    (hw : decode w = .invalid why) : runEval w args outs s = .refused (.reservedOpword w) := by
  simp only [runEval, hw]

/-! ## Operation lines -/

/-- Settles O49: `runEval`'s five stages, each given. -/
theorem stepRunsDecodedOperation : Obligations.StepRunsDecodedOperation := by
  intro s t w args outs i vs p e hline hw hvs hp ht he
  rw [step_eval hline]
  exact runEval_of_op hw hvs hp ht he

/-- Settles O51: both kinds of reserved word decode to no operation. -/
theorem reservedWordIsRefused : Obligations.ReservedWordIsRefused := by
  intro s w args outs hline hw
  rw [step_eval hline]
  rcases hw with ⟨h8, h76⟩ | ⟨h8, hc⟩
  · exact runEval_of_invalid args outs s (decode_of_reserved_bits h8 h76)
  · exact runEval_of_invalid args outs s (decode_of_nonzero_ctrl h8 hc)

theorem presentLine_of_op {w : OpWord} {i : Instr} (h : decode w = .op i) (s : State) :
    presentLine w s =
      .eval w ((inputValues i.unitOf s.inputs).map Operand.lit) (List.replicate (outputCount i.unitOf) none) := by
  simp only [presentLine, h]

/-- Discarding every output leaves the host's names alone. -/
theorem bindOutputs_discarded (u : UnitName) (o : Outputs) (e : List (Nat × Value)) :
    bindOutputs (List.replicate (outputCount u) none) (outputValues u o) e = .ok e := by
  rw [← outputValues_length u o]
  exact bindOutputs_none _ e

/-- Settles O50: the placed line drives the levels already at the ports and discards the outputs. -/
theorem stepRunsPlacedWord : Obligations.StepRunsPlacedWord := by
  intro s nbits w i hw
  rw [decodeTableWord_eq_some_iff] at hw
  have hline : (s.withFetchWord nbits w).script[(s.withFetchWord nbits w).line]? =
      some (presentLine (tableWord nbits w) s) := rfl
  rw [presentLine_of_op hw] at hline
  refine ⟨_, exec_eq i _, ?_, rfl, rfl⟩
  exact stepRunsDecodedOperation _ _ _ _ _ i _ _ _ hline hw (resolveAll_lit _ _) (drive_inputValues _ _) (exec_eq i _)
    (bindOutputs_discarded _ _ _)

/-! ## Other lines -/

/-- Settles O54: the rule of each kind of line. -/
theorem hostLinesEvaluateNothing : Obligations.HostLinesEvaluateNothing := by
  refine fun s => ⟨fun h => ?_, fun l h => ?_, fun n v h => ?_, fun n m v h hv => ?_, fun negated cond l h hb => ?_⟩
  · exact step_of_script_end (List.getElem?_eq_none h)
  · exact step_of_line h
  · exact step_assign h rfl
  · exact step_assign h (by rw [resolve, hv])
  · exact step_branch_not_taken h hb

/-- A line with another content does not stop the search for a label. -/
theorem findLabel_cons_of_ne {l : Nat} {st : Stmt} (h : st ≠ .label l) (rest : List Stmt) (here : Nat) :
    findLabel l (st :: rest) here = findLabel l rest (here + 1) := by
  cases st with
  | label k => exact if_neg fun hk => h (congrArg Stmt.label hk)
  | _ => rfl

theorem findLabel_cons_self (l : Nat) (rest : List Stmt) (here : Nat) :
    findLabel l (.label l :: rest) here = some here := if_pos rfl

theorem findLabel_first {l : Nat} {pre : List Stmt} (h : Stmt.label l ∉ pre) (post : List Stmt) (here : Nat) :
    findLabel l (pre ++ .label l :: post) here = some (here + pre.length) := by
  induction pre generalizing here with
  | nil => exact findLabel_cons_self l post here
  | cons st pre ih =>
    rw [List.mem_cons, not_or] at h
    rw [List.cons_append, findLabel_cons_of_ne (Ne.symm h.1), ih h.2, List.length_cons, Nat.add_right_comm, Nat.add_assoc]

/-- Settles O55: the search passes over the lines before the label's first. -/
theorem controlFlowReachesTheLabel : Obligations.ControlFlowReachesTheLabel := by
  intro s l pre post hscript hpre
  have hgoto : runGoto l s = .next (s.setLine pre.length) :=
    runGoto_of_findLabel (by rw [hscript, findLabel_first hpre, Nat.zero_add])
  refine ⟨fun h => (step_of_line h).trans hgoto, fun negated cond h hb => ?_⟩
  exact (step_branch_taken h hb (Bool.not_ne_self negated)).trans hgoto

/-- Settles O56: no kind of step touches the script, and the ports change in the evaluation only. -/
theorem onlyOperationLinesTouchPorts : Obligations.OnlyOperationLinesTouchPorts := by
  intro s t h
  rcases step_cases h with ⟨-, rfl⟩ | ⟨n, rfl⟩ | ⟨n, x, rfl⟩ |
    ⟨w, args, outs, i, vs, p, u, e, hline, -, -, -, hu, -, rfl⟩
  · exact ⟨rfl, fun _ => ⟨rfl, rfl⟩⟩
  · exact ⟨rfl, fun _ => ⟨rfl, rfl⟩⟩
  · exact ⟨rfl, fun _ => ⟨rfl, rfl⟩⟩
  · obtain ⟨-, -, hscript, -⟩ := evaluationFrame i _ _ hu
    exact ⟨hscript, fun hno => absurd hline (hno w args outs)⟩

end Sys2Proof.Machine
end

section
/-! PROOFS. When a step completes, and what an operation line leaves in the host's names (30_encoding.md R75,
60_exceptions.md R155). -/

namespace Sys2Proof.Machine

/-! ## Operands of the ports' kinds -/

theorem isVec_eq_false {v : Value} : v.isVec = false ↔ ∃ b, v = .bit b := by
  cases v <;> simp [Value.isVec]

theorem isVec_eq_true {v : Value} : v.isVec = true ↔ ∃ a, v = .vec a := by
  cases v <;> simp [Value.isVec]

theorem map_isVec_inputValues (u : UnitName) (p : Inputs) : (inputValues u p).map Value.isVec = vectorPorts u := by
  cases u <;> rfl

/-- Values of a unit's kinds can stand at its ports, and then the ports take them. -/
theorem exists_drive_of_kinds {u : UnitName} {vs : List Value} (h : vs.map Value.isVec = vectorPorts u) (p : Inputs) :
    ∃ q, drive u vs p = .ok q := by
  cases u <;> simp only [vectorPorts, List.map_eq_cons_iff, List.map_eq_nil_iff, isVec_eq_false, isVec_eq_true] at h
  case ha =>
    obtain ⟨_, _, rfl, ⟨a, rfl⟩, _, _, rfl, ⟨b, rfl⟩, rfl⟩ := h
    exact ⟨_, rfl⟩
  case fa =>
    obtain ⟨_, _, rfl, ⟨a, rfl⟩, _, _, rfl, ⟨b, rfl⟩, _, _, rfl, ⟨c, rfl⟩, rfl⟩ := h
    exact ⟨_, rfl⟩
  case add =>
    obtain ⟨_, _, rfl, ⟨a, rfl⟩, _, _, rfl, ⟨b, rfl⟩, rfl⟩ := h
    exact ⟨_, rfl⟩
  case inc =>
    obtain ⟨_, _, rfl, ⟨a, rfl⟩, rfl⟩ := h
    exact ⟨_, rfl⟩
  case alu =>
    obtain ⟨_, _, rfl, ⟨x, rfl⟩, _, _, rfl, ⟨y, rfl⟩, rfl⟩ := h
    exact ⟨_, rfl⟩

theorem exists_drive_iff (u : UnitName) (vs : List Value) (p : Inputs) :
    (∃ q, drive u vs p = .ok q) ↔ vs.map Value.isVec = vectorPorts u := by
  constructor
  · rintro ⟨q, hq⟩
    rw [← drive_eq_ok hq, map_isVec_inputValues]
  · exact fun h => exists_drive_of_kinds h p

/-! ## Completion, one rule per kind of line -/

theorem runEval_completes_iff (w : OpWord) (args : List Operand) (outs : List (Option Nat)) (s : State) :
    (∃ t, runEval w args outs s = .next t) ↔
      ∃ i vs, decode w = .op i ∧ resolveAll s.names args = .ok vs ∧ vs.map Value.isVec = vectorPorts i.unitOf ∧
        outs.length = outputCount i.unitOf := by
  constructor
  · rintro ⟨t, ht⟩
    obtain ⟨i, vs, p, u, e, hw, hvs, hp, -, he, -⟩ := runEval_eq_next ht
    refine ⟨i, vs, hw, hvs, (exists_drive_iff _ _ _).mp ⟨p, hp⟩, ?_⟩
    rw [← outputValues_length i.unitOf u.outputs]
    exact (bindOutputs_isOk _ _ _).mp ⟨e, he⟩
  · rintro ⟨i, vs, hw, hvs, hkinds, houts⟩
    obtain ⟨p, hp⟩ := (exists_drive_iff _ _ s.inputs).mpr hkinds
    have hex := exec_eq i (s.setInputs p)
    rw [← outputValues_length i.unitOf (evaluated i (s.setInputs p))] at houts
    obtain ⟨e, he⟩ := (bindOutputs_isOk _ _ s.names).mpr houts
    exact ⟨_, runEval_of_op hw hvs hp hex he⟩

theorem findLabel_isSome_iff (l : Nat) (script : List Stmt) (here : Nat) :
    (∃ n, findLabel l script here = some n) ↔ HasLabel l script := by
  induction script generalizing here with
  | nil => simp [findLabel, HasLabel]
  | cons st rest ih =>
    by_cases hst : st = .label l
    · subst hst
      simp [findLabel_cons_self, HasLabel]
    · rw [findLabel_cons_of_ne hst, ih, HasLabel, HasLabel, List.mem_cons, or_iff_right (Ne.symm hst)]

theorem runGoto_completes_iff (l : Nat) (s : State) : (∃ t, runGoto l s = .next t) ↔ HasLabel l s.script := by
  rw [← findLabel_isSome_iff l s.script 0]
  constructor
  · rintro ⟨t, ht⟩
    obtain ⟨n, hn, -⟩ := runGoto_eq_next ht
    exact ⟨n, hn⟩
  · rintro ⟨n, hn⟩
    exact ⟨_, runGoto_of_findLabel hn⟩

theorem runBranch_completes_iff (negated : Bool) (cond l : Nat) (s : State) :
    (∃ t, runBranch negated cond l s = .next t) ↔
      ∃ b, lookup s.names cond = some (.bit b) ∧ (b ≠ negated → HasLabel l s.script) := by
  rw [← runGoto_completes_iff]
  unfold runBranch
  split
  · next b hb =>
    by_cases hne : b = negated <;> simp [hb, hne]
  · next hv => simp [hv]
  · next hv => simp [hv]

theorem runAssign_completes_iff (n : Nat) (v : Operand) (s : State) :
    (∃ t, runAssign n v s = .next t) ↔ ∃ x, resolve s.names v = .ok x := by
  constructor
  · rintro ⟨t, ht⟩
    obtain ⟨x, hx, -⟩ := runAssign_eq_next ht
    exact ⟨x, hx⟩
  · rintro ⟨x, hx⟩
    exact ⟨_, by rw [runAssign, hx, orRefuse_ok]⟩

/-- Settles O52: kind of line by kind of line, at the script's end without a condition. -/
theorem stepCompletesExactlyWhenReady : Obligations.StepCompletesExactlyWhenReady := by
  intro s
  unfold Completes LineReady
  cases h : s.script[s.line]? with
  | none => exact iff_of_true ⟨s, step_of_script_end h⟩ trivial
  | some st =>
    rw [step_of_line h]
    cases st with
    | eval w args outs => exact runEval_completes_iff w args outs s
    | assign n v => exact runAssign_completes_iff n v s
    | branch negated cond l => exact runBranch_completes_iff negated cond l s
    | goto l => exact runGoto_completes_iff l s
    | label l => exact iff_of_true ⟨_, rfl⟩ trivial

/-! ## The host's names after an operation line -/

/-- A name that the line does not give keeps its value. -/
theorem lookup_bindOutputs_of_not_mem {ns : List (Option Nat)} {vs : List Value} {e e' : List (Nat × Value)} {n : Nat}
    (h : bindOutputs ns vs e = .ok e') (he : namesCanonical e = true) (hn : some n ∉ ns) :
    lookup e' n = lookup e n := by
  induction ns, vs, e using bindOutputs.induct with
  | case1 e => simp only [bindOutputs, Except.ok.injEq] at h; rw [h]
  | case2 ns x vs e ih => exact ih h he fun hmem => hn (List.mem_cons_of_mem _ hmem)
  | case3 m ns x vs e ih =>
    rw [List.mem_cons, not_or, Option.some_inj] at hn
    rw [ih h (namesCanonical_bindName _ _ _ he) hn.2, lookup_bindName _ _ _ _ he, if_neg (Ne.symm hn.1)]
  | case4 ns vs e => simp_all [bindOutputs]

/-- A name holds the last output that the line gives it. -/
theorem lookup_bindOutputs {ns : List (Option Nat)} {vs : List Value} {e e' : List (Nat × Value)} {k n : Nat} {v : Value}
    (h : bindOutputs ns vs e = .ok e') (he : namesCanonical e = true) (hk : ns[k]? = some (some n))
    (hv : vs[k]? = some v) (hlast : ∀ k' > k, ns[k']? ≠ some (some n)) : lookup e' n = some v := by
  induction ns, vs, e using bindOutputs.induct generalizing k with
  | case1 e => simp at hk
  | case2 ns x vs e ih =>
    cases k with
    | zero => simp at hk
    | succ k => exact ih h he hk hv fun k' hk' => hlast (k' + 1) (by omega)
  | case3 m ns x vs e ih =>
    have hcanon := namesCanonical_bindName e m x he
    have h : bindOutputs ns vs (bindName e m x) = .ok e' := h
    cases k with
    | zero =>
      simp only [List.getElem?_cons_zero, Option.some.injEq] at hk hv
      subst hk hv
      have hn : some m ∉ ns := fun hmem => by
        obtain ⟨k', hk'⟩ := List.getElem?_of_mem hmem
        exact hlast (k' + 1) (by omega) hk'
      rw [lookup_bindOutputs_of_not_mem h hcanon hn, lookup_bindName _ _ _ _ he, if_pos rfl]
    | succ k => exact ih h hcanon hk hv fun k' hk' => hlast (k' + 1) (by omega)
  | case4 ns vs e => simp_all [bindOutputs]

/-- Settles O53: the names after the step are those before it with the outputs bound. -/
theorem outputsReachTheHostsNames : Obligations.OutputsReachTheHostsNames := by
  intro s t w args outs i hcanon hline hw hstep
  rw [step_eval hline] at hstep
  obtain ⟨j, vs, p, u, e, hj, -, -, hu, he, rfl⟩ := runEval_eq_next hstep
  obtain rfl : j = i := by simpa [hw] using hj.symm
  obtain ⟨-, hnames, -⟩ := evaluationFrame j _ _ hu
  rw [hnames] at he
  exact ⟨fun k n v hk hv hlast => lookup_bindOutputs he hcanon hk hv hlast,
    fun n hn => lookup_bindOutputs_of_not_mem he hcanon hn⟩

end Sys2Proof.Machine
end

section
/-! PROOFS. The invariant: what the units' functions can answer, and that every step keeps it (40_adders.md sections 1, 3 and
4, 41_alu.md section 4). -/

namespace Sys2Proof.Machine

/-! ## What each unit can answer -/

theorem halfAdder_possible (a b : Bit) : (halfAdder a b).possible := by
  revert a b
  decide

/-- An empty sum is the sum of empty operands. -/
theorem nBitAdder_possible (a b : Bits) : (nBitAdder a b).possible := by
  intro h
  have hlen := nBitAdder_sum_length a b
  rw [h, List.length_nil] at hlen
  obtain rfl : a = [] := List.eq_nil_of_length_eq_zero (by omega)
  rw [nBitAdder_nil_left]

theorem incrementer_possible (a : Bits) : (incrementer a).possible := by
  refine ⟨fun h => ?_, fun hov b hb => ?_⟩
  · have hlen := incrementer_result_length a
    rw [h, List.length_nil] at hlen
    omega
  · rw [incrementer_result_of_overflow hov] at hb
    exact List.eq_of_mem_replicate hb

theorem alu_possible (x y : Bits) (c : Ctrl) : (alu x y c).possible :=
  ⟨zeroFlag_eq_true, negFlag_eq_true⟩

/-! ## Steps -/

/-- The part of the invariant that speaks of the output levels. -/
def OutputsPossible (o : Outputs) : Prop := o.ha.possible ∧ o.add.possible ∧ o.inc.possible ∧ o.alu.possible

theorem inv_iff (s : State) : s.Inv ↔ OutputsPossible s.outputs ∧ namesCanonical s.names = true := by
  simp only [OutputsPossible, State.Inv, and_assoc]

/-- An evaluation replaces one unit's outputs by outputs that unit can have. -/
theorem exec_keeps_outputsPossible {i : Instr} {s t : State} (h : exec i s = .next t)
    (hs : OutputsPossible s.outputs) : OutputsPossible t.outputs := by
  obtain ⟨hha, hadd, hinc, halu⟩ := hs
  rcases exec_cases h with ⟨-, rfl⟩ | ⟨-, rfl⟩ | ⟨-, rfl⟩ | ⟨-, rfl⟩ | ⟨-, c, -, rfl⟩
  · exact ⟨halfAdder_possible _ _, hadd, hinc, halu⟩
  · exact ⟨hha, hadd, hinc, halu⟩
  · exact ⟨hha, nBitAdder_possible _ _, hinc, halu⟩
  · exact ⟨hha, hadd, incrementer_possible _, halu⟩
  · exact ⟨hha, hadd, hinc, alu_possible _ _ _⟩

/-- Settles O57: a step changes the output levels by an evaluation only, and the names by bindings only. -/
theorem stepKeepsInvariant : Obligations.StepKeepsInvariant := by
  intro s t hs h
  rw [inv_iff] at hs ⊢
  obtain ⟨houts, hnames⟩ := hs
  rcases step_cases h with ⟨-, rfl⟩ | ⟨n, rfl⟩ | ⟨n, x, rfl⟩ |
    ⟨w, args, outs, i, vs, p, u, e, -, -, -, -, hu, he, rfl⟩
  · exact ⟨houts, hnames⟩
  · exact ⟨houts, hnames⟩
  · exact ⟨houts, namesCanonical_bindName _ _ _ hnames⟩
  · obtain ⟨-, hunames, -⟩ := evaluationFrame i _ _ hu
    have huouts : OutputsPossible u.outputs := exec_keeps_outputsPossible hu houts
    exact ⟨huouts, bindOutputs_canonical he (hunames ▸ hnames)⟩

end Sys2Proof.Machine
end
